-- ==== Sys2Proof/Word.lean ====
section
/-! DEFINITION. The machine's plainest words. -/

namespace Sys2Proof

/-- A byte of the bus, of a voice register or of the sample ROM (30_encoding.md R100, 20_memory.md R76). -/
abbrev Byte := BitVec 8

/-- The two-bit port number of a bus transaction (30_encoding.md R100). -/
abbrev Port := BitVec 2

/-- The number of voices, "fixed for chip lifetime" (00_scope.md R9). -/
abbrev voiceCount : Nat := 28

/-- A voice number, 0 to 27 (00_scope.md R9, 10_state.md R35). -/
abbrev VoiceId := Fin voiceCount

end Sys2Proof
end

