-- ==== Sys2Proof/Machine/Arith.lean ====
section
/-! DEFINITION. The operators of 00_scope.md R15 and R17 on exact integers. -/

namespace Sys2Proof.Machine

/-- `a >> n` is `floor(a / 2^n)`, an arithmetic shift for a negative `a` (00_scope.md R15). -/
def floorShift (a : Int) (n : Nat) : Int := a / ((2 ^ n : Nat) : Int)

/-- `clamp(lo, hi, v)` is `min(hi, max(lo, v))` (00_scope.md R15). -/
def clamp (lo hi v : Int) : Int := min hi (max lo v)

/-- `FLOOR0(v)` is `max(0, v)` (00_scope.md R17). -/
def floor0 (v : Int) : Int := max 0 v

/-- `floor(s / R)` for a natural `s`, exact for a rational `R` (00_scope.md R15, 92_eei_decisions.md D40). -/
def floorQuotient (s : Nat) (R : Rat) : Nat := ((s : Rat) / R).floor.toNat

end Sys2Proof.Machine
end

