-- ==== Sys2Proof/Config.lean ====
section
/-! DEFINITION. What the hardware's implementation fixes: the widths State is made of (00_scope.md R11), and the
open parameters of the spec, each an uninterpreted constant with no body (R12's tables, TL_KEY_SAMPLE, INPUT_CLOCK).
The parameters that shape no type of State stand in Machine/Params.lean, and the constraints R12 puts on the
tables are imposed in Machine/Tables.lean. -/

namespace Sys2Proof.Config

/-- FRACBITS, the fraction bits of the playback offset and step (00_scope.md R11; the spec's default, log entry 3). -/
abbrev fracBits : Nat := 12

/-- EG_SHIFT, the fraction bits of the envelope volume (00_scope.md R11; log entry 3). -/
abbrev egShift : Nat := 16

/-- EG_INT_BITS, the integer bits of the envelope volume (00_scope.md R11; log entry 3). -/
abbrev egIntBits : Nat := 10

/-- TL_SHIFT, the fraction bits of the total level (00_scope.md R11; log entry 3). -/
abbrev tlShift : Nat := 12

/-- ROM_ADDR_BITS, fixed at 24 (00_scope.md R11, 20_memory.md R70). -/
abbrev romAddrBits : Nat := 24

/-- LFO_PHASE_BITS, fixed at 16 (00_scope.md R11, 10_state.md R48). -/
abbrev lfoPhaseBits : Nat := 16

/-- The two values of the parameter TL_KEY_SAMPLE (00_scope.md R11, 44_mixer.md R296). -/
inductive TlKeySample where
  /-- the pan key reads the total level after step 7 of the tick (the spec's default) -/
  | afterRamp
  /-- the pan key reads the total level as it was at the start of the tick -/
  | beforeRamp
deriving DecidableEq, Repr, Inhabited

/-- The constant tables the core reads (00_scope.md R12). An index has exactly the table's width, and an entry's type
is the range R12 gives it: a natural, an integer, or, for the two waveform tables, eight bits (signed in `plfoWave`,
unsigned in `alfoWave`). R12: "A model takes each table as an argument": every operation that reads one takes a
`Tables`. The one parameter of R11 that chooses between two behaviours stands with them, open in the same way. -/
structure Tables where
  /-- TL_KEY_SAMPLE: which total level the pan key reads (44_mixer.md R296, 93_implementation_defined.md I14; log
  entry 15). -/
  tlKeySample : TlKeySample
  /-- FREQ_STEP_R: one table of 1024 base frequency steps per frame rate `R`. -/
  freqStep : Rat → BitVec 10 → Nat
  /-- ATTACK_STEP: 64 envelope steps for attack. -/
  attackStep : BitVec 6 → Nat
  /-- DECAY_STEP: 64 envelope steps for decay 1, decay 2 and release. -/
  decayStep : BitVec 6 → Nat
  /-- EXP_GAIN: the gain for each integer envelope volume. -/
  expGain : BitVec egIntBits → Nat
  /-- TL_STEP_RAISE: the step of a rising total level. -/
  tlStepRaise : Int
  /-- TL_STEP_LOWER: the step of a falling total level. -/
  tlStepLower : Int
  /-- LFO_PHASE_STEP: 8 phase steps, built once for the rate at initialisation. -/
  lfoPhaseStep : BitVec 3 → Nat
  /-- PLFO_WAVE: 256 signed bytes. -/
  plfoWave : BitVec 8 → BitVec 8
  /-- ALFO_WAVE: 256 unsigned bytes. -/
  alfoWave : BitVec 8 → BitVec 8
  /-- PSCALE: 8 x 256 pitch-scale entries. -/
  pscale : BitVec 3 → BitVec 8 → Nat
  /-- ASCALE: 8 x 256 amplitude-scale entries. -/
  ascale : BitVec 3 → BitVec 8 → Nat
  /-- PAN_L: 2048 left gains, indexed by pan code and total level. -/
  panL : BitVec 11 → Nat
  /-- PAN_R: 2048 right gains, indexed by pan code and total level. -/
  panR : BitVec 11 → Nat
deriving Inhabited

/-- The tables of the chip: open (93_implementation_defined.md I13). No body: nothing can be proved of an entry. The
machine reads them through `Machine.tables`, which imposes R12's constraints (log entry 1). -/
opaque freeTables : Tables

/-- INPUT_CLOCK in Hz: open (00_scope.md R10, R11, 93_implementation_defined.md I11). The machine reads it through
`Machine.inputClock`, which makes it positive (log entry 2). -/
opaque freeInputClock : Rat

end Sys2Proof.Config
end

