-- ==== Sys2Proof/Machine/Params.lean ====
section
/-! DEFINITION. The other parameters of 00_scope.md R11, which shape no type of State, at the spec's default values
(log entry 3). -/

namespace Sys2Proof.Machine

/-- LFO_SHIFT, the fraction bits of the LFO phase and of the LFO scale-table entries (00_scope.md R11). -/
def lfoShift : Nat := 8

/-- GAIN_BITS, the fraction bits of EXP_GAIN (00_scope.md R11). -/
def gainBits : Nat := 10

/-- MOD_BITS, the fraction bits of an LFO modifier (00_scope.md R11). -/
def modBits : Nat := 12

/-- PAN_BITS, the fraction bits of the pan tables (00_scope.md R11). -/
def panBits : Nat := 12

/-- OCTAVE_BIAS, subtracted from the octave field before sign extension (00_scope.md R11). -/
def octaveBias : Nat := 1

/-- INSTANT_RELEASE, the release code that stops a voice at key-off (00_scope.md R11). -/
def instantRelease : BitVec 4 := 15

/-- EG_MAX = 2^EG_INT_BITS - 1 (00_scope.md R11). -/
def egMax : Nat := 2 ^ Config.egIntBits - 1

/-- The envelope ceiling `EG_MAX << EG_SHIFT` (41_envelope.md R195). -/
def egCeiling : Nat := egMax * 2 ^ Config.egShift

/-- DECAY1_SKIP = 0x400 << EG_SHIFT (00_scope.md R11). -/
def decay1Skip : Nat := 0x400 * 2 ^ Config.egShift

/-- OUT_MIN (00_scope.md R11, 44_mixer.md R300). -/
def outMin : Int := -32768

/-- OUT_MAX (00_scope.md R11, 44_mixer.md R300). -/
def outMax : Int := 32767

/-- The clocks of one frame: `R = f_in / 224` (00_scope.md R10, 70_reset_and_hazards.md R380). -/
def clocksPerFrame : Nat := 224

end Sys2Proof.Machine
end

