-- ==== Sys2Proof/Machine/Tables.lean ====
section
/-! DEFINITION. The constraints 00_scope.md R12 puts on the tables, and the tables and the input clock the machine
reads: Config's open constants brought under those constraints, and otherwise free (log entries 1, 2). -/

namespace Sys2Proof.Machine

open Sys2Proof.Config (Tables)

/-- The pan code of an 11-bit pan key: `key[10:7]` (44_mixer.md R295). -/
def keyPan (key : BitVec 11) : BitVec 4 := key.extractLsb' 7 4

/-- "index 0 is the slowest and index 63 the fastest" (00_scope.md R12), for ATTACK_STEP and DECAY_STEP. -/
def SlowestToFastest (t : BitVec 6 → Nat) : Prop := ∀ i, t 0 ≤ t i ∧ t i ≤ t 63

/-- The constraints of 00_scope.md R12, row by row. (The rows' sizes and ranges are in the type of `Tables`.) -/
structure TablesOk (T : Tables) : Prop where
  /-- ATTACK_STEP -/
  attack : SlowestToFastest T.attackStep
  /-- DECAY_STEP -/
  decay : SlowestToFastest T.decayStep
  /-- EXP_GAIN is "non-decreasing in the index" -/
  gain : ∀ i j : BitVec Config.egIntBits, i.toNat ≤ j.toNat → T.expGain i ≤ T.expGain j
  /-- `TL_STEP_RAISE > 0` -/
  raise : 0 < T.tlStepRaise
  /-- `TL_STEP_LOWER < 0` -/
  lower : T.tlStepLower < 0
  /-- `PSCALE[0][i] = 2^LFO_SHIFT` for every i -/
  pitchFlat : ∀ i, T.pscale 0 i = 2 ^ lfoShift
  /-- `ASCALE[0][i] = 2^LFO_SHIFT` for every i -/
  ampFlat : ∀ i, T.ascale 0 i = 2 ^ lfoShift
  /-- pan code 8 is silent in both channels, at every level -/
  panSilent : ∀ key, keyPan key = 8 → T.panL key = 0 ∧ T.panR key = 0
  /-- pan code 0 is the same in both channels, at every level -/
  panCentre : ∀ key, keyPan key = 0 → T.panL key = T.panR key

/-- A 64-entry table with its entries held between entry 0 and entry 63. -/
def heldBetweenEnds (t : BitVec 6 → Nat) (i : BitVec 6) : Nat :=
  if i = 0 then t 0 else min (max (t 0) (t i)) (max (t 0) (t 63))

/-- The greatest of the first `n + 1` entries. -/
def runningMax (t : Nat → Nat) : Nat → Nat
  | 0 => t 0
  | n + 1 => max (runningMax t n) (t (n + 1))

/-- A scale table with row 0 flat at `2^LFO_SHIFT`. -/
def flatRowZero (t : BitVec 3 → BitVec 8 → Nat) (d : BitVec 3) (i : BitVec 8) : Nat :=
  if d = 0 then 2 ^ lfoShift else t d i

/-- The tables nearest to `T` that meet R12's constraints: `T` itself when it meets them (Laws/Tables.lean). -/
def constrainTables (T : Tables) : Tables where
  tlKeySample := T.tlKeySample
  freqStep := T.freqStep
  attackStep := heldBetweenEnds T.attackStep
  decayStep := heldBetweenEnds T.decayStep
  expGain i := runningMax (fun n => T.expGain (BitVec.ofNat Config.egIntBits n)) i.toNat
  tlStepRaise := max 1 T.tlStepRaise
  tlStepLower := min (-1) T.tlStepLower
  lfoPhaseStep := T.lfoPhaseStep
  plfoWave := T.plfoWave
  alfoWave := T.alfoWave
  pscale := flatRowZero T.pscale
  ascale := flatRowZero T.ascale
  panL key := if keyPan key = 8 then 0 else T.panL key
  panR key := if keyPan key = 8 then 0 else if keyPan key = 0 then T.panL key else T.panR key

/-- The tables of the machine: any tables that meet R12's constraints, and nothing more is known of them. -/
def tables : Tables := constrainTables Config.freeTables

/-- INPUT_CLOCK: any positive rational (00_scope.md R10). -/
def inputClock : Rat := if 0 < Config.freeInputClock then Config.freeInputClock else 1

end Sys2Proof.Machine
end

