-- ==== Sys2Proof/Syntax.lean ====
section
/-! DEFINITION. The events the environment applies to the core (00_scope.md R6) and the operations they decode to,
one constructor for each row of spec/opcode_table.json (30_encoding.md R105). -/

namespace Sys2Proof

/-- The four kinds of event, as they reach the core (00_scope.md R6). -/
inductive Event where
  /-- `WRITE(port, data)`: one bus transaction (30_encoding.md R100). -/
  | write (port : Port) (data : Byte)
  /-- `TICK`: one frame of the frame clock. -/
  | tick
  /-- `CLOCK(f_in)`: the input clock frequency changes to `f_in` Hz. -/
  | clock (fIn : Rat)
  /-- `RESET`: return to the reset state. -/
  | reset
deriving DecidableEq, Repr

/-- The operations of spec/opcode_table.json. A port-0 operation keeps the whole data byte, because the register
stores all eight bits (10_state.md R36); `WellFormed` says which data bits a row fixes. -/
inductive Instr where
  /-- `WR.NOVOICE` (40_register_bank.md R144). -/
  | wrNovoice (data : Byte)
  /-- `WR.PAN`, register 0 (R150). -/
  | wrPan (data : Byte)
  /-- `WR.SAMPLE`, register 1 (R152). -/
  | wrSample (data : Byte)
  /-- `WR.PITCHL`, register 2 (R156). -/
  | wrPitchl (data : Byte)
  /-- `WR.PITCHH`, register 3 (R157). -/
  | wrPitchh (data : Byte)
  /-- `WR.KEYOFF`, register 4 with data bit 7 clear (R163). -/
  | wrKeyoff (data : Byte)
  /-- `WR.KEYON`, register 4 with data bit 7 set (R162). -/
  | wrKeyon (data : Byte)
  /-- `WR.TLRAMP`, register 5 with data bit 0 clear (R166). -/
  | wrTlramp (data : Byte)
  /-- `WR.TLSET`, register 5 with data bit 0 set (R165). -/
  | wrTlset (data : Byte)
  /-- `WR.LFO`, register 6 (R168). -/
  | wrLfo (data : Byte)
  /-- `WR.AM`, register 7 (R169). -/
  | wrAm (data : Byte)
  /-- `SELV`, port 1 (R141). -/
  | selv (data : Byte)
  /-- `SELR`, port 2 (R142). -/
  | selr (data : Byte)
  /-- `RSVD.P3`, port 3 (R143). -/
  | rsvdP3 (data : Byte)
  /-- `TICK` (44_mixer.md R310). -/
  | tick
  /-- `RESET` (70_reset_and_hazards.md R360). -/
  | reset
  /-- `CLOCK` (70_reset_and_hazards.md R372). -/
  | clock (fIn : Rat)
deriving DecidableEq, Repr

/-- The operation's mnemonic, as spec/opcode_table.json spells it. -/
def Instr.mnemonic : Instr → String
  | .wrNovoice _ => "WR.NOVOICE"
  | .wrPan _ => "WR.PAN"
  | .wrSample _ => "WR.SAMPLE"
  | .wrPitchl _ => "WR.PITCHL"
  | .wrPitchh _ => "WR.PITCHH"
  | .wrKeyoff _ => "WR.KEYOFF"
  | .wrKeyon _ => "WR.KEYON"
  | .wrTlramp _ => "WR.TLRAMP"
  | .wrTlset _ => "WR.TLSET"
  | .wrLfo _ => "WR.LFO"
  | .wrAm _ => "WR.AM"
  | .selv _ => "SELV"
  | .selr _ => "SELR"
  | .rsvdP3 _ => "RSVD.P3"
  | .tick => "TICK"
  | .reset => "RESET"
  | .clock _ => "CLOCK"

end Sys2Proof
end

