-- ==== Sys2Proof/Machine/State.lean ====
section
/-! DEFINITION. The state of the core as plain data (10_state.md), the reasons a step can stop, and the state after
reset (R50). -/

namespace Sys2Proof.Machine

/-- Why the machine would stop with a fault: never. The type has no constructor, because "No event raises an exception,
trap or fault" (60_exceptions.md R330) and no ROM read can fail (R332). Safe: there is nothing to raise. -/
inductive Fault where
deriving DecidableEq, Repr

/-- Why the machine refuses an event. -/
inductive Refusal where
  /-- Raised by `exec` for an operation that has no meaning yet; no arm of `exec` does so. Safe. -/
  | notModelled (mnemonic : String)
  /-- Raised by `step` when the next event is a `CLOCK` whose frequency is not positive, which is no event of the spec
  (00_scope.md R10: `R` is "an exact positive rational number"). Safe: the machine stops. -/
  | clockNotPositive
deriving DecidableEq, Repr

/-- The sample ROM's contents as (address, byte) pairs, addresses strictly rising and no byte that an unlisted address
reads as (Machine/Ops.lean, `Memory.wf`). -/
abbrev Memory := List Host.Cell

/-- The format flag: header bit 23 (10_state.md R38, R39). -/
inductive SampleFormat where
  /-- 0: linear-8 -/
  | linear8
  /-- 1: packed-linear-12 -/
  | packed12
deriving DecidableEq, Repr

/-- `smp`, the decoded sample metadata (10_state.md R38). -/
structure Sample where
  /-- ROM byte offset of the first sample-data byte -/
  start : BitVec 21
  /-- the format flag -/
  format : SampleFormat
  /-- loop-start sample index (`smp.loop`) -/
  loopPos : BitVec 16
  /-- end sample index, exclusive (`smp.end`) -/
  endPos : BitVec 16
  /-- attack rate code -/
  ar : BitVec 4
  /-- decay-1 rate code -/
  d1r : BitVec 4
  /-- decay-2 rate code -/
  d2r : BitVec 4
  /-- decay level -/
  dl : BitVec 4
  /-- release rate code -/
  rr : BitVec 4
  /-- key-rate-scale code -/
  krs : BitVec 4
  /-- the raw LFO-vibrato byte -/
  lfoVib : Byte
  /-- the raw LFO-amplitude nibble -/
  lfoAmp : BitVec 4
deriving DecidableEq, Repr

/-- The four envelope states (10_state.md R45). -/
inductive EgState where
  /-- ATTACK -/
  | attack
  /-- DECAY1 -/
  | decay1
  /-- DECAY2 -/
  | decay2
  /-- RELEASE -/
  | release
deriving DecidableEq, Repr

/-- The envelope generator of a voice (10_state.md R45, R46, R47). -/
structure Envelope where
  /-- `eg.state` -/
  state : EgState
  /-- `eg.vol`, unsigned, `EG_SHIFT` fraction bits and `EG_INT_BITS` integer bits -/
  vol : BitVec (Config.egIntBits + Config.egShift)
  /-- `eg.ar`, the attack rate -/
  ar : Nat
  /-- `eg.d1r`, the decay-1 rate -/
  d1r : Nat
  /-- `eg.d2r`, the decay-2 rate -/
  d2r : Nat
  /-- `eg.rr`, the release rate -/
  rr : Nat
  /-- `eg.thr`, the decay threshold code -/
  thr : BitVec 4
deriving DecidableEq, Repr

/-- One LFO unit (10_state.md R48). -/
structure LfoUnit where
  /-- the phase accumulator -/
  phase : BitVec Config.lfoPhaseBits
  /-- the latched phase step, stored mod 2^16 -/
  pstep : BitVec Config.lfoPhaseBits
  /-- the latched depth index -/
  depth : BitVec 3
deriving DecidableEq, Repr

/-- One voice (10_state.md R35 to R48). -/
structure Voice where
  /-- `regs[0..7]`: the raw bytes last written (R36) -/
  regs : Vector Byte 8
  /-- the pan code (R37) -/
  pan : BitVec 4
  /-- the sample metadata (R38) -/
  smp : Sample
  /-- the ROM base address that sample decode uses (R39) -/
  base : BitVec 21
  /-- the format flag that sample decode uses (R39) -/
  format : SampleFormat
  /-- the playback position, unsigned, `FRACBITS` fraction bits (R40) -/
  offset : BitVec (16 + Config.fracBits)
  /-- the per-tick increment, "a natural number with no upper bound" (R41) -/
  step : Nat
  /-- the previous decoded sample, signed (R42) -/
  prev : BitVec 16
  /-- the core's only status flag (R43) -/
  playing : Bool
  /-- the current attenuation, unsigned, `TL_SHIFT` fraction bits (R44) -/
  tl : BitVec (7 + Config.tlShift)
  /-- the destination attenuation (R44) -/
  destTl : BitVec 7
  /-- the ramp step, a signed integer (R44) -/
  tlStep : Int
  /-- the envelope generator (R45 to R47) -/
  eg : Envelope
  /-- the pitch LFO unit (R48) -/
  plfo : LfoUnit
  /-- the amplitude LFO unit (R48) -/
  alfo : LfoUnit
deriving DecidableEq, Repr

/-- One stereo output frame, each channel a signed 16-bit integer (00_scope.md R8). -/
structure Frame where
  /-- `L` -/
  left : BitVec 16
  /-- `R` -/
  right : BitVec 16
deriving DecidableEq, Repr

/-- The whole machine: the core's global state (10_state.md R30) and its 28 voices (R35), the ROM the host attached
(00_scope.md R7), and the model's own two lists, which stand for the core's environment: the events still to be
applied (R6, log entry 5) and the frames emitted so far (R8, log entry 6). -/
structure State where
  /-- `sel_voice`: a voice, or `none` for `NONE` (R30) -/
  selVoice : Option VoiceId
  /-- `sel_reg` (R30) -/
  selReg : BitVec 3
  /-- `R`, the current output frame rate (R30) -/
  rate : Rat
  /-- the 28 voices (R35) -/
  voices : Vector Voice voiceCount
  /-- the attached sample ROM (00_scope.md R7, 20_memory.md R70) -/
  rom : Memory
  /-- the model's own: the environment's events not yet applied, the next one first -/
  pending : List Event
  /-- the model's own: the frames emitted so far, the newest first -/
  frames : List Frame
deriving DecidableEq, Repr

/-! ### Reset values (10_state.md R50) -/

/-- "All fields reset to 0" (10_state.md R38). -/
def Sample.reset : Sample where
  start := 0
  format := .linear8
  loopPos := 0
  endPos := 0
  ar := 0
  d1r := 0
  d2r := 0
  dl := 0
  rr := 0
  krs := 0
  lfoVib := 0
  lfoAmp := 0

/-- The envelope's reset values (10_state.md R45, R46, R47). -/
def Envelope.reset (T : Config.Tables) : Envelope where
  state := .attack
  vol := 0
  ar := T.attackStep 0
  d1r := T.decayStep 0
  d2r := T.decayStep 0
  rr := T.decayStep 0
  thr := 15

/-- An LFO unit's reset values (10_state.md R48). -/
def LfoUnit.reset : LfoUnit where
  phase := 0
  pstep := 0
  depth := 0

/-- A voice's reset values (10_state.md R50). -/
def Voice.reset (T : Config.Tables) : Voice where
  regs := Vector.replicate 8 0
  pan := 0
  smp := Sample.reset
  base := 0
  format := .linear8
  offset := 0
  step := 0
  prev := 0
  playing := false
  tl := 0
  destTl := 0
  tlStep := 0
  eg := Envelope.reset T
  plfo := LfoUnit.reset
  alfo := LfoUnit.reset

/-- The machine at power-on: "the reset state with `R = INPUT_CLOCK / 224`" (70_reset_and_hazards.md R360). No ROM
byte is listed, no event is pending and no frame has been emitted (log entries 4, 5, 6). -/
def State.reset : State where
  selVoice := some 0
  selReg := 0
  rate := inputClock / clocksPerFrame
  voices := Vector.replicate voiceCount (Voice.reset tables)
  rom := []
  pending := []
  frames := []

end Sys2Proof.Machine
end

