-- ==== Sys2Proof/Machine/Flags.lean ====
section
/-! DEFINITION. The core's only flag, `playing` (10_state.md R43): no instruction reads it as a condition code, and no
other flag or condition code exists (R32). -/

namespace Sys2Proof.Machine

/-- `playing <- 1`, by key-on alone (10_state.md R43). -/
def Voice.setPlaying (v : Voice) : Voice := { v with playing := true }

/-- `playing <- 0`, by an instant release or by the end of a release (10_state.md R43). -/
def Voice.clearPlaying (v : Voice) : Voice := { v with playing := false }

end Sys2Proof.Machine
end

