-- ==== Sys2Proof/Machine/Operands.lean ====
section
/-! DEFINITION. The operand forms: the fields of the bus words, of the voice registers and of the numbers made of them
(30_encoding.md R106 to R119). -/

namespace Sys2Proof.Machine

/-! ### Select ports -/

/-- The voice code of a port-1 write: `data[4:0]` (30_encoding.md R106). -/
def voiceCode (data : Byte) : BitVec 5 := data.extractLsb' 0 5

/-- VOICE_TABLE: "Codes with `c[2:0] = 7` map to `NONE`. Every other code maps to voice `7*c[4:3] + c[2:0]`"
(30_encoding.md R106). -/
def voiceTable (c : BitVec 5) : Option VoiceId :=
  let n := 7 * (c.extractLsb' 3 2).toNat + (c.extractLsb' 0 3).toNat
  if c.extractLsb' 0 3 = 7 then none
  else if h : n < voiceCount then some ⟨n, h⟩ else none

/-- The register-select value `min(data, 7)`, over the full data byte (30_encoding.md R107). -/
def registerSelect (data : Byte) : BitVec 3 := BitVec.ofNat 3 (min data.toNat 7)

/-! ### Register fields (30_encoding.md R110 to R117) -/

/-- Register 0 `[7:4]`, the pan code (R110). -/
def panCode (data : Byte) : BitVec 4 := data.extractLsb' 4 4

/-- Register 5 `[7:1]`, the destination attenuation (R115). -/
def destLevel (data : Byte) : BitVec 7 := data.extractLsb' 1 7

/-- Register 6 `[5:3]`, the LFO frequency select (R116). -/
def lfoFrequency (reg6 : Byte) : BitVec 3 := reg6.extractLsb' 3 3

/-- Register 6 `[2:0]`, the pitch-LFO depth (R116). -/
def pitchDepth (reg6 : Byte) : BitVec 3 := reg6.extractLsb' 0 3

/-- Register 7 `[2:0]`, the amplitude-LFO depth (R117). -/
def ampDepth (reg7 : Byte) : BitVec 3 := reg7.extractLsb' 0 3

/-! ### Assembled operands (30_encoding.md R118, R119) -/

/-- The sample index `{regs[2][0], regs[1][7:0]}` (R118). -/
def sampleIndex (reg1 reg2 : Byte) : BitVec 9 := reg2.extractLsb' 0 1 ++ reg1

/-- The octave `sext_4((regs[3][7:4] - OCTAVE_BIAS) mod 16)` (R119). -/
def octave (reg3 : Byte) : Int := (reg3.extractLsb' 4 4 - BitVec.ofNat 4 octaveBias).toInt

/-- The pitch fraction `{regs[3][3:0], regs[2][7:2]}` (R119). -/
def pitchFraction (reg2 reg3 : Byte) : BitVec 10 := reg3.extractLsb' 0 4 ++ reg2.extractLsb' 2 6

/-- `regs[3][3]`, the pitch bit that feeds the key rate (R113, 41_envelope.md R193). -/
def keyRateBit (reg3 : Byte) : Nat := (reg3.extractLsb' 3 1).toNat

end Sys2Proof.Machine
end

