-- ==== Sys2Proof/WellFormed.lean ====
section
/-! DEFINITION. Which operand values an operation can carry: the data bits its row of 30_encoding.md R105 fixes, and
a positive input clock (00_scope.md R10). -/

namespace Sys2Proof

/-- The data condition of the operation's row (30_encoding.md R105); for `CLOCK`, `R = f_in / 224` is "an exact
positive rational number" (00_scope.md R10). -/
def Instr.wellFormed : Instr → Bool
  | .wrNovoice _ => true
  | .wrPan _ => true
  | .wrSample _ => true
  | .wrPitchl _ => true
  | .wrPitchh _ => true
  | .wrKeyoff data => !data.getLsbD 7
  | .wrKeyon data => data.getLsbD 7
  | .wrTlramp data => !data.getLsbD 0
  | .wrTlset data => data.getLsbD 0
  | .wrLfo _ => true
  | .wrAm _ => true
  | .selv _ => true
  | .selr _ => true
  | .rsvdP3 _ => true
  | .tick => true
  | .reset => true
  | .clock fIn => decide (0 < fIn)

/-- An event of the spec: every bus word is one (30_encoding.md R121), and an input clock is positive
(00_scope.md R10). -/
def Event.wellFormed : Event → Bool
  | .write _ _ => true
  | .tick => true
  | .clock fIn => decide (0 < fIn)
  | .reset => true

end Sys2Proof
end

