-- ==== Sys2Proof/Decode.lean ====
section
/-! DEFINITION. From an event and the two state inputs of decoding to an operation, and back: the decode key
(30_encoding.md R103, R104), the operation map (R105) as the decoder and as the table's rows, the encoder, and the
pseudo-instructions of the spec's notation (R123). -/

namespace Sys2Proof

/-! ### The decode key -/

/-- `K = {voice_valid[13], sel_reg[12:10], port[9:8], data[7:0]}` (30_encoding.md R104). -/
abbrev DecodeKey := BitVec 14

/-- The bus word `W = {port[1:0], data[7:0]}` (30_encoding.md R100). -/
def busWord (port : Port) (data : Byte) : BitVec 10 := port ++ data

/-- The decode key of a write, from the two state inputs of R103 and the bus word (30_encoding.md R104). -/
def decodeKeyOf (voiceValid : Bool) (selReg : BitVec 3) (port : Port) (data : Byte) : DecodeKey :=
  BitVec.ofBool voiceValid ++ selReg ++ busWord port data

/-- `K[13]`. -/
def DecodeKey.voiceValid (k : DecodeKey) : Bool := k.getLsbD 13

/-- `K[12:10]`. -/
def DecodeKey.selReg (k : DecodeKey) : BitVec 3 := k.extractLsb' 10 3

/-- `K[9:8]`. -/
def DecodeKey.port (k : DecodeKey) : Port := k.extractLsb' 8 2

/-- `K[7:0]`. -/
def DecodeKey.data (k : DecodeKey) : Byte := k.extractLsb' 0 8

/-! ### The decoder -/

/-- The rows of R105 with `voice_valid = 1` and port 0: the selected register picks the operation, and in registers 4
and 5 one data bit as well. -/
def decodeRegisterWrite (selReg : BitVec 3) (data : Byte) : Instr :=
  match selReg.toNat with
  | 0 => .wrPan data
  | 1 => .wrSample data
  | 2 => .wrPitchl data
  | 3 => .wrPitchh data
  | 4 => if data.getLsbD 7 then .wrKeyon data else .wrKeyoff data
  | 5 => if data.getLsbD 0 then .wrTlset data else .wrTlramp data
  | 6 => .wrLfo data
  | _ => .wrAm data

/-- The operation map (30_encoding.md R105). It refuses no key: "every 10-bit bus word is accepted" (R121), and the
table is complete over all 2^14 keys (R104). -/
def decodeKey (k : DecodeKey) : Instr :=
  match k.port.toNat with
  | 1 => .selv k.data
  | 2 => .selr k.data
  | 3 => .rsvdP3 k.data
  | _ => if k.voiceValid then decodeRegisterWrite k.selReg k.data else .wrNovoice k.data

/-- Why an event is no event of the spec. -/
inductive DecodeError where
  /-- `CLOCK(f_in)` with `f_in` not positive: the frame rate is "an exact positive rational number" (00_scope.md R10),
  so no such event exists. -/
  | clockNotPositive
deriving DecidableEq, Repr

/-- The operation an event stands for, given whether a voice is selected and which register (30_encoding.md R103: "the
only decoding mode the core has"). `TICK`, `RESET` and `CLOCK` have no bus encoding (R105): they are their own
operations. -/
def decode (voiceValid : Bool) (selReg : BitVec 3) : Event → Except DecodeError Instr
  | .write port data => .ok (decodeKey (decodeKeyOf voiceValid selReg port data))
  | .tick => .ok .tick
  | .clock fIn => if 0 < fIn then .ok (.clock fIn) else .error .clockNotPositive
  | .reset => .ok .reset

/-- The operation the decoder reads from a word of spec/opcode_table.json. A row's word is the 14-bit key of R104 with
its bits numbered as the key's; a number that is no 14-bit key is none of the table's words, and neither is a word of
no bits (the three events, which have no bus encoding). -/
def decodeTableWord (nbits w : Nat) : Option Instr :=
  if nbits = 0 then none
  else if w < 2 ^ 14 then some (decodeKey (BitVec.ofNat 14 w)) else none

/-! ### The rows of the table -/

/-- One row of spec/opcode_table.json with a key: it selects a key `k` when `k &&& mask = pattern` (R104). -/
structure OpcodeRow where
  /-- the row's mnemonic -/
  mnemonic : String
  /-- the row's "match" -/
  pattern : DecodeKey
  /-- the row's "mask" -/
  mask : DecodeKey
deriving DecidableEq, Repr

/-- `(K & mask) == match` (30_encoding.md R104). -/
def OpcodeRow.selects (r : OpcodeRow) (k : DecodeKey) : Bool := k &&& r.mask == r.pattern

/-- The fourteen bus rows of spec/opcode_table.json, in its order. -/
def opcodeRows : List OpcodeRow :=
  [⟨"WR.NOVOICE", 0x0000#14, 0x2300#14⟩,
   ⟨"WR.PAN", 0x2000#14, 0x3F00#14⟩,
   ⟨"WR.SAMPLE", 0x2400#14, 0x3F00#14⟩,
   ⟨"WR.PITCHL", 0x2800#14, 0x3F00#14⟩,
   ⟨"WR.PITCHH", 0x2C00#14, 0x3F00#14⟩,
   ⟨"WR.KEYOFF", 0x3000#14, 0x3F80#14⟩,
   ⟨"WR.KEYON", 0x3080#14, 0x3F80#14⟩,
   ⟨"WR.TLRAMP", 0x3400#14, 0x3F01#14⟩,
   ⟨"WR.TLSET", 0x3401#14, 0x3F01#14⟩,
   ⟨"WR.LFO", 0x3800#14, 0x3F00#14⟩,
   ⟨"WR.AM", 0x3C00#14, 0x3F00#14⟩,
   ⟨"SELV", 0x0100#14, 0x0300#14⟩,
   ⟨"SELR", 0x0200#14, 0x0300#14⟩,
   ⟨"RSVD.P3", 0x0300#14, 0x0300#14⟩]

/-! ### The encoder -/

/-- The event an operation is written as: a bus word `W = port * 256 + data` (30_encoding.md R100, R102, R123), or one
of the three events with no encoding. -/
def encode : Instr → Event
  | .wrNovoice data => .write 0 data
  | .wrPan data => .write 0 data
  | .wrSample data => .write 0 data
  | .wrPitchl data => .write 0 data
  | .wrPitchh data => .write 0 data
  | .wrKeyoff data => .write 0 data
  | .wrKeyon data => .write 0 data
  | .wrTlramp data => .write 0 data
  | .wrTlset data => .write 0 data
  | .wrLfo data => .write 0 data
  | .wrAm data => .write 0 data
  | .selv data => .write 1 data
  | .selr data => .write 2 data
  | .rsvdP3 data => .write 3 data
  | .tick => .tick
  | .reset => .reset
  | .clock fIn => .clock fIn

/-- The key's bit 13 under which the operation is decoded: the value its row fixes (R105), else the given one. -/
def Instr.keyValid : Instr → Bool → Bool
  | .wrNovoice _, _ => false
  | .wrPan _, _ => true
  | .wrSample _, _ => true
  | .wrPitchl _, _ => true
  | .wrPitchh _, _ => true
  | .wrKeyoff _, _ => true
  | .wrKeyon _, _ => true
  | .wrTlramp _, _ => true
  | .wrTlset _, _ => true
  | .wrLfo _, _ => true
  | .wrAm _, _ => true
  | .selv _, given => given
  | .selr _, given => given
  | .rsvdP3 _, given => given
  | .tick, given => given
  | .reset, given => given
  | .clock _, given => given

/-- The key's bits 12:10 under which the operation is decoded: the value its row fixes (R105), else the given one. -/
def Instr.keySel : Instr → BitVec 3 → BitVec 3
  | .wrNovoice _, given => given
  | .wrPan _, _ => 0
  | .wrSample _, _ => 1
  | .wrPitchl _, _ => 2
  | .wrPitchh _, _ => 3
  | .wrKeyoff _, _ => 4
  | .wrKeyon _, _ => 4
  | .wrTlramp _, _ => 5
  | .wrTlset _, _ => 5
  | .wrLfo _, _ => 6
  | .wrAm _, _ => 7
  | .selv _, given => given
  | .selr _, given => given
  | .rsvdP3 _, given => given
  | .tick, given => given
  | .reset, given => given
  | .clock _, given => given

/-- The decode key of a bus operation: the bits its row fixes and its data, and the given values in the bits its row
leaves open. The three events have none. -/
def encodeKey (voiceValid : Bool) (selReg : BitVec 3) (i : Instr) : Option DecodeKey :=
  match encode i with
  | .write port data => some (decodeKeyOf (i.keyValid voiceValid) (i.keySel selReg) port data)
  | .tick => none
  | .clock _ => none
  | .reset => none

/-! ### The notation of host programs (30_encoding.md R123) -/

/-- `SELV <code>`. -/
def asmSelv (code : Byte) : Event := .write 1 code

/-- `SELR <n>`. -/
def asmSelr (n : Byte) : Event := .write 2 n

/-- `WR <byte>`. -/
def asmWr (data : Byte) : Event := .write 0 data

/-- `P3 <byte>`. -/
def asmP3 (data : Byte) : Event := .write 3 data

/-- `WREG <code>, <r>, <byte>` expands to `SELV <code> ; SELR <r> ; WR <byte>`. -/
def pseudoWreg (code r data : Byte) : List Event := [asmSelv code, asmSelr r, asmWr data]

/-- `KEYON <code>` expands to `WREG <code>, 4, 0x80`. -/
def pseudoKeyon (code : Byte) : List Event := pseudoWreg code 4 0x80

/-- `KEYOFF <code>` expands to `WREG <code>, 4, 0x00`. -/
def pseudoKeyoff (code : Byte) : List Event := pseudoWreg code 4 0x00

/-- `TICKS <n>` expands to `TICK` repeated `n` times. -/
def pseudoTicks (n : Nat) : List Event := List.replicate n .tick

end Sys2Proof
end

