-- ==== Sys2Proof/Machine/Ops.lean ====
section
/-! DEFINITION. The shared operations over the ROM, the voice registers, the selected voice and the environment's
events. The core takes no exception (60_exceptions.md R330, R336), so no operation enters or leaves one. -/

namespace Sys2Proof.Machine

/-! ### The sample ROM -/

/-- What an address reads as when no byte is listed for it (log entry 4). -/
def romFill : Byte := 0

/-- The byte listed for an address. -/
def Memory.lookup : Memory → Nat → Byte
  | [], _ => romFill
  | (b, x) :: rest, a => if a = b then x else Memory.lookup rest a

/-- `MemRead(addr, 1)`: the ROM byte at a 24-bit address. Every read returns a byte (20_memory.md R70, R71). -/
def memRead (m : Memory) (a : BitVec Config.romAddrBits) : Byte := m.lookup a.toNat

/-- The ROM with one byte placed by the host. The core itself never writes memory (20_memory.md R72): this is how the
host's attachment of a ROM is written down (00_scope.md R7). -/
def Memory.place : Memory → Nat → Byte → Memory
  | [], a, x => if x = romFill then [] else [(a, x)]
  | (b, y) :: rest, a, x =>
    if a < b then (if x = romFill then (b, y) :: rest else (a, x) :: (b, y) :: rest)
    else if a = b then (if x = romFill then rest else (a, x) :: rest)
    else (b, y) :: Memory.place rest a x

/-- The ROM with the bytes placed from an address on, in order. -/
def Memory.placeAll (m : Memory) (a : Nat) : List Byte → Memory
  | [] => m
  | x :: xs => Memory.placeAll (m.place a x) (a + 1) xs

/-- Every listed address is at least `lo`, the addresses rise strictly, they are ROM addresses, and no listed byte is
the one an unlisted address reads as. -/
def Memory.wfFrom : Memory → Nat → Bool
  | [], _ => true
  | (a, x) :: rest, lo =>
    decide (lo ≤ a) && decide (a < 2 ^ Config.romAddrBits) && decide (x ≠ romFill) && Memory.wfFrom rest (a + 1)

/-- The canonical form of a ROM's listing: equal ROMs are equal lists. -/
def Memory.wf (m : Memory) : Bool := m.wfFrom 0

/-! ### Voice registers -/

/-- `v.regs[r]` (00_scope.md R16). -/
def Voice.reg (v : Voice) (r : Fin 8) : Byte := v.regs[r]

/-- `v.regs[r] <- d`, the store that every port-0 write does first (40_register_bank.md R145). -/
def Voice.storeReg (v : Voice) (r : Fin 8) (d : Byte) : Voice := { v with regs := v.regs.set r d }

/-! ### The selected voice -/

/-- `voice_valid = (sel_voice ≠ NONE)` (30_encoding.md R103). -/
def State.voiceValid (s : State) : Bool := s.selVoice.isSome

/-- Voice `v`'s state. -/
def State.voice (s : State) (v : VoiceId) : Voice := s.voices[v]

/-- Change one voice and nothing else: "A write to one voice never changes another voice's state" (20_memory.md R83). -/
def State.updateVoice (s : State) (v : VoiceId) (f : Voice → Voice) : State :=
  { s with voices := s.voices.set v (f (s.voice v)) }

/-- A port-0 write: apply `f` to the selected voice, and do nothing when none is selected (40_register_bank.md R144,
R145). -/
def State.onSelected (s : State) (f : Voice → Voice) : State :=
  match s.selVoice with
  | none => s
  | some v => s.updateVoice v f

/-! ### Events -/

/-- The next event: the first of the environment's, and the frame clock's `TICK` when the host has none to apply
(00_scope.md R6, 60_exceptions.md R341; log entry 5). -/
def State.nextEvent (s : State) : Event :=
  match s.pending with
  | [] => .tick
  | e :: _ => e

/-- The state with the next event taken off the environment's list. -/
def State.popEvent (s : State) : State := { s with pending := s.pending.tail }

/-- The state in which the next event is a write with decode key `k` (30_encoding.md R104): the key's two state inputs
are made to hold, and the bus word is put first among the events. A voice that is selected stays selected. -/
def State.placeKey (s : State) (k : DecodeKey) : State :=
  { s with
    selVoice := if k.voiceValid then some (s.selVoice.getD 0) else none
    selReg := k.selReg
    pending := .write k.port k.data :: s.pending }

end Sys2Proof.Machine
end

