-- ==== Sys2Proof/Machine/Envelope.lean ====
section
/-! DEFINITION. `envelope_generator_fsm` (41_envelope.md). -/

namespace Sys2Proof.Machine

/-! ### Rate derivation -/

/-- `GET_RATE(T, kr, code)` (41_envelope.md R191). -/
def getRate (t : BitVec 6 → Nat) (kr : Int) (code : BitVec 4) : Nat :=
  if code = 0 then t 0
  else if code = 15 then t 63
  else t (BitVec.ofInt 6 (clamp 0 63 (4 * (code.toNat : Int) + kr)))

/-- `KEY_RATE(v)` (41_envelope.md R193), from the key-rate-scale code and register 3. -/
def keyRate (krs : BitVec 4) (reg3 : Byte) : Int :=
  if krs = 15 then 0 else (octave reg3 + (krs.toNat : Int)) * 2 + (keyRateBit reg3 : Int)

/-- The decay threshold code `15 - smp.dl` (41_envelope.md R194). -/
def thresholdCode (dl : BitVec 4) : BitVec 4 := 15 - dl

/-- `EG_RECALC(v)`: the four rates and the threshold, and neither the state nor the volume (41_envelope.md R192). -/
def Voice.egRecalc (T : Config.Tables) (v : Voice) : Voice :=
  let kr := keyRate v.smp.krs (v.reg 3)
  { v with eg := { v.eg with
      ar := getRate T.attackStep kr v.smp.ar
      d1r := getRate T.decayStep kr v.smp.d1r
      d2r := getRate T.decayStep kr v.smp.d2r
      rr := getRate T.decayStep kr v.smp.rr
      thr := thresholdCode v.smp.dl } }

/-! ### Per-tick update -/

/-- A volume as it is stored: `EG_INT_BITS + EG_SHIFT` bits (10_state.md R46). -/
def storeVol (n : Int) : BitVec (Config.egIntBits + Config.egShift) :=
  BitVec.ofInt (Config.egIntBits + Config.egShift) n

/-- The integer volume `vol >> EG_SHIFT` (41_envelope.md R196, R200). -/
def volInt (vol : BitVec (Config.egIntBits + Config.egShift)) : BitVec Config.egIntBits :=
  vol.extractLsb' Config.egShift Config.egIntBits

/-- The integer volume at or below which DECAY1 ends: `eg.thr << (EG_INT_BITS - 4)` (41_envelope.md R194). -/
def thresholdVolume (thr : BitVec 4) : Nat := thr.toNat * 2 ^ (Config.egIntBits - 4)

/-- ATTACK, one tick (41_envelope.md R195). -/
def Envelope.attackTick (e : Envelope) : Envelope :=
  let nv := e.vol.toNat + e.ar
  if nv ≥ egCeiling then
    { e with vol := storeVol egCeiling, state := if e.d1r ≥ decay1Skip then .decay2 else .decay1 }
  else { e with vol := storeVol nv }

/-- DECAY1, one tick: the threshold test is made on the new volume (41_envelope.md R196). -/
def Envelope.decay1Tick (e : Envelope) : Envelope :=
  let vol := storeVol (floor0 ((e.vol.toNat : Int) - e.d1r))
  { e with vol := vol, state := if (volInt vol).toNat ≤ thresholdVolume e.thr then .decay2 else .decay1 }

/-- DECAY2, one tick (41_envelope.md R197). -/
def Envelope.decay2Tick (e : Envelope) : Envelope :=
  { e with vol := storeVol (floor0 ((e.vol.toNat : Int) - e.d2r)) }

/-- RELEASE, one tick, but for `playing` (41_envelope.md R198). -/
def Envelope.releaseTick (e : Envelope) : Envelope :=
  { e with vol := storeVol (floor0 ((e.vol.toNat : Int) - e.rr)) }

/-- The envelope's update in `EG_TICK`, by its state at the start of the call (41_envelope.md R199). -/
def Envelope.tick (e : Envelope) : Envelope :=
  match e.state with
  | .attack => e.attackTick
  | .decay1 => e.decay1Tick
  | .decay2 => e.decay2Tick
  | .release => e.releaseTick

/-- `EG_TICK(v)`: the update, and in RELEASE `if v.eg.vol = 0 then v.playing <- 0` (41_envelope.md R198, R199). -/
def Voice.egTick (v : Voice) : Voice :=
  let w := { v with eg := v.eg.tick }
  if v.eg.state = .release ∧ w.eg.vol = 0 then w.clearPlaying else w

/-- The gain `EXP_GAIN[v.eg.vol >> EG_SHIFT]`, read after the update (41_envelope.md R200). -/
def Envelope.gain (T : Config.Tables) (e : Envelope) : Nat := T.expGain (volInt e.vol)

end Sys2Proof.Machine
end

