-- ==== Sys2Proof/Machine/Lfo.lean ====
section
/-! DEFINITION. `lfo_phase_accumulator` (42_lfo.md). -/

namespace Sys2Proof.Machine

/-- `LFO_PHASE_STEP[f] mod 2^16` (42_lfo.md R221). -/
def phaseStep (T : Config.Tables) (f : BitVec 3) : BitVec Config.lfoPhaseBits :=
  BitVec.ofNat Config.lfoPhaseBits (T.lfoPhaseStep f)

/-- `LFO_RECOMPUTE(v)`: latch the phase steps and the depths of both units; neither phase changes (42_lfo.md R221). -/
def Voice.lfoRecompute (T : Config.Tables) (v : Voice) : Voice :=
  let step := phaseStep T (lfoFrequency (v.reg 6))
  { v with
    plfo := { v.plfo with pstep := step, depth := pitchDepth (v.reg 6) }
    alfo := { v.alfo with pstep := step, depth := ampDepth (v.reg 7) } }

/-- The pitch unit is enabled when `v.regs[6] ≠ 0` (42_lfo.md R222). -/
def Voice.pitchEnabled (v : Voice) : Bool := v.reg 6 != 0

/-- The amplitude unit is enabled when `v.regs[7] ≠ 0` (42_lfo.md R222). -/
def Voice.ampEnabled (v : Voice) : Bool := v.reg 7 != 0

/-- `phase <- (phase + pstep) mod 2^16` (42_lfo.md R223). -/
def LfoUnit.advance (u : LfoUnit) : LfoUnit := { u with phase := u.phase + u.pstep }

/-- The waveform index `phase[15:8]` (42_lfo.md R224). -/
def LfoUnit.waveIndex (u : LfoUnit) : BitVec 8 := u.phase.extractLsb' 8 8

/-- A scale entry as a modifier with `MOD_BITS` fraction bits: `<< (MOD_BITS - LFO_SHIFT)` (42_lfo.md R225, R226). -/
def scaleToModifier (n : Nat) : Nat := n * 2 ^ (modBits - lfoShift)

/-- What `PLFO_STEP` returns, from the advanced unit: the waveform is signed and the scale table is indexed at `w + 128`
(42_lfo.md R225). -/
def pitchModifier (T : Config.Tables) (u : LfoUnit) : Nat :=
  let w := (T.plfoWave u.waveIndex).toInt
  scaleToModifier (T.pscale u.depth (BitVec.ofInt 8 (w + 128)))

/-- What `ALFO_STEP` returns, from the advanced unit (42_lfo.md R226). -/
def ampModifier (T : Config.Tables) (u : LfoUnit) : Nat :=
  scaleToModifier (T.ascale u.depth (T.alfoWave u.waveIndex))

/-- The pitch unit after step 4 of a tick: it advances when it is enabled (42_lfo.md R223). -/
def Voice.pitchAdvance (v : Voice) : Voice :=
  { v with plfo := if v.pitchEnabled then v.plfo.advance else v.plfo }

/-- `step_eff`, step 4 of a tick, for a voice whose pitch unit has advanced (42_lfo.md R227). -/
def Voice.stepEff (T : Config.Tables) (v : Voice) : Nat :=
  if v.pitchEnabled then v.step * pitchModifier T v.plfo / 2 ^ modBits else v.step

/-- The amplitude unit after step 8 of a tick: it advances when it is enabled (42_lfo.md R223). -/
def Voice.ampAdvance (v : Voice) : Voice :=
  { v with alfo := if v.ampEnabled then v.alfo.advance else v.alfo }

/-- The sample after step 8 of a tick, for a voice whose amplitude unit has advanced (42_lfo.md R228). -/
def Voice.tremolo (T : Config.Tables) (v : Voice) (s : Int) : Int :=
  if v.ampEnabled then floorShift (s * ampModifier T v.alfo) modBits else s

end Sys2Proof.Machine
end

