-- ==== Sys2Proof/Machine/SampleDecode.lean ====
section
/-! DEFINITION. `sample_decoder_interp` (43_sample_decode.md): the header decode, the sample decode, the interpolation
and the playback position. -/

namespace Sys2Proof.Machine

/-! ### Header decode -/

/-- The ROM address of header byte `n` of sample index `idx`: `idx * 12 + n` (43_sample_decode.md R250, R251). -/
def headerAddr (idx : BitVec 9) (n : Nat) : BitVec Config.romAddrBits :=
  BitVec.ofNat Config.romAddrBits (idx.toNat * 12 + n)

/-- The format a flag bit names: 0 linear-8, 1 packed-linear-12 (43_sample_decode.md R252). -/
def formatOf (flag : Bool) : SampleFormat := if flag then .packed12 else .linear8

/-- `HEADER_DECODE(idx)`: every field of the metadata, from the twelve header bytes; nothing is checked
(43_sample_decode.md R250, R252 to R257). Multi-byte fields are big-endian (20_memory.md R74). -/
def headerDecode (m : Memory) (idx : BitVec 9) : Sample :=
  let b := fun n => memRead m (headerAddr idx n)
  let start24 : BitVec 24 := b 0 ++ b 1 ++ b 2
  { start := start24.extractLsb' 0 21
    format := formatOf (start24.getLsbD 23)
    loopPos := b 3 ++ b 4
    endPos := 0xFFFF#16 - (b 5 ++ b 6)
    ar := (b 8).extractLsb' 4 4
    d1r := (b 8).extractLsb' 0 4
    d2r := (b 9).extractLsb' 0 4
    dl := (b 9).extractLsb' 4 4
    rr := (b 10).extractLsb' 0 4
    krs := (b 10).extractLsb' 4 4
    lfoVib := b 7
    lfoAmp := (b 11).extractLsb' 0 4 }

/-! ### Sample decode -/

/-- `spos = v.offset >> FRACBITS` (43_sample_decode.md R260). -/
def Voice.spos (v : Voice) : BitVec 16 := v.offset.extractLsb' Config.fracBits 16

/-- `fpart = v.offset mod 2^FRACBITS` (43_sample_decode.md R260). -/
def Voice.fpart (v : Voice) : Nat := v.offset.toNat % 2 ^ Config.fracBits

/-- The ROM byte at `base + k`; no address of the spec leaves 24 bits (20_memory.md R80). -/
def dataByte (m : Memory) (base : BitVec 21) (k : Nat) : Byte :=
  memRead m (BitVec.ofNat Config.romAddrBits (base.toNat + k))

/-- `DECODE8`: `sext_8(byte) << 8`, a signed 16-bit value (43_sample_decode.md R261). -/
def decode8 (m : Memory) (base : BitVec 21) (spos : BitVec 16) : BitVec 16 :=
  dataByte m base spos.toNat ++ 0#8

/-- A packed-linear-12 pattern: a high byte, then one nibble, then four zero bits (43_sample_decode.md R263). -/
def packedPattern (high : Byte) (nibble : BitVec 4) : BitVec 16 := high ++ nibble ++ 0#4

/-- `DECODE12`: sample `spos` of its 6-byte group at `base + (spos >> 2) * 6`, one of four nibble layouts
(43_sample_decode.md R262, R263). -/
def decode12 (m : Memory) (base : BitVec 21) (spos : BitVec 16) : BitVec 16 :=
  let b := fun n => dataByte m base (spos.toNat / 4 * 6 + n)
  match spos.toNat % 4 with
  | 0 => packedPattern (b 0) ((b 1).extractLsb' 0 4)
  | 1 => packedPattern (b 2) ((b 1).extractLsb' 4 4)
  | 2 => packedPattern (b 3) ((b 4).extractLsb' 0 4)
  | _ => packedPattern (b 5) ((b 4).extractLsb' 4 4)

/-- `DECODE(v, spos)`, by the format latched in the voice (43_sample_decode.md R264). -/
def Voice.decodeSample (m : Memory) (v : Voice) (spos : BitVec 16) : BitVec 16 :=
  match v.format with
  | .linear8 => decode8 m v.base spos
  | .packed12 => decode12 m v.base spos

/-! ### Interpolation -/

/-- `s = (csample * fpart + prev * (2^FRACBITS - fpart)) >> FRACBITS` (43_sample_decode.md R265). -/
def interpolate (csample prev : Int) (fpart : Nat) : Int :=
  floorShift (csample * fpart + prev * ((2 ^ Config.fracBits : Nat) - (fpart : Int))) Config.fracBits

/-! ### Playback position -/

/-- A whole sample position as an offset: `n << FRACBITS`. -/
def atSample (n : BitVec 16) : Nat := n.toNat * 2 ^ Config.fracBits

/-- Step 5 of a tick: advance by `step_eff`, then wrap to exactly `loop << FRACBITS` at or past the end
(43_sample_decode.md R266, R267). The comparison is on the exact sum. -/
def advanceOffset (smp : Sample) (offset : BitVec (16 + Config.fracBits)) (stepEff : Nat) :
    BitVec (16 + Config.fracBits) :=
  let sum := offset.toNat + stepEff
  BitVec.ofNat (16 + Config.fracBits) (if sum ≥ atSample smp.endPos then atSample smp.loopPos else sum)

/-- Step 5 of a tick on the voice. -/
def Voice.advance (stepEff : Nat) (v : Voice) : Voice := { v with offset := advanceOffset v.smp v.offset stepEff }

/-- Step 6 of a tick: `if (v.offset >> FRACBITS) ≠ spos then v.prev <- csample` (43_sample_decode.md R268). -/
def Voice.capturePrev (spos : BitVec 16) (csample : BitVec 16) (v : Voice) : Voice :=
  { v with prev := if v.spos ≠ spos then csample else v.prev }

end Sys2Proof.Machine
end

