-- ==== Sys2Proof/Machine/Mixer.lean ====
section
/-! DEFINITION. `pan_volume_mixer` (44_mixer.md): the total-level ramp, the gain, the pan, the frame, and the whole
`TICK` procedure (R310). -/

namespace Sys2Proof.Machine

/-! ### Total-level ramp -/

/-- A total level as it is stored: `7 + TL_SHIFT` bits (10_state.md R44). -/
def storeTl (n : Int) : BitVec (7 + Config.tlShift) := BitVec.ofInt (7 + Config.tlShift) n

/-- `dest_tl << TL_SHIFT`. -/
def destValue (destTl : BitVec 7) : Nat := destTl.toNat * 2 ^ Config.tlShift

/-- The level after `TL_RAMP`: one ramp step toward the destination, stopped exactly there; a level at its destination
stays (44_mixer.md R290, R291). -/
def rampTl (tl : BitVec (7 + Config.tlShift)) (destTl : BitVec 7) (tlStep : Int) : BitVec (7 + Config.tlShift) :=
  let d : Int := destValue destTl
  let t : Int := tl.toNat + tlStep
  if (tl.toNat : Int) ≠ d then (if tlStep ≥ 0 then storeTl (min t d) else storeTl (max t d)) else tl

/-- `TL_RAMP(v)`, step 7 of a tick (44_mixer.md R290, R291). -/
def Voice.tlRamp (v : Voice) : Voice := { v with tl := rampTl v.tl v.destTl v.tlStep }

/-! ### Gain, pan and frame -/

/-- The integer part of a total level: `tl >> TL_SHIFT` (44_mixer.md R295). -/
def tlInt (tl : BitVec (7 + Config.tlShift)) : BitVec 7 := tl.extractLsb' Config.tlShift 7

/-- `key = (v.pan << 7) | (tl_k >> TL_SHIFT)` (44_mixer.md R295). -/
def panKey (pan : BitVec 4) (tlK : BitVec (7 + Config.tlShift)) : BitVec 11 := pan ++ tlInt tlK

/-- `tl_k`, by TL_KEY_SAMPLE (44_mixer.md R296). -/
def keyLevel (sample : Config.TlKeySample) (before after : BitVec (7 + Config.tlShift)) : BitVec (7 + Config.tlShift) :=
  match sample with
  | .afterRamp => after
  | .beforeRamp => before

/-- `(PAN[key] * s) >> PAN_BITS`, one channel's addend (44_mixer.md R297). -/
def panProduct (gain : Nat) (s : Int) : Int := floorShift (gain * s) panBits

/-- What a voice's part of a tick gives: its new state, and its addends to the two accumulators. -/
structure VoiceTick where
  /-- the voice after the tick -/
  voice : Voice
  /-- what it adds to `accL` -/
  left : Int
  /-- what it adds to `accR` -/
  right : Int
deriving DecidableEq, Repr

/-- Saturate an accumulator to the output range (44_mixer.md R300). -/
def saturate (acc : Int) : BitVec 16 := BitVec.ofInt 16 (clamp outMin outMax acc)

/-! ### The TICK procedure (44_mixer.md R310) -/

/-- Steps 4 to 9 of a playing voice's tick, all but the sample: pitch LFO, advance and wrap, previous sample,
total-level ramp, amplitude LFO, envelope. -/
def Voice.tickState (T : Config.Tables) (m : Memory) (v : Voice) : Voice :=
  let pitched := v.pitchAdvance
  let moved := (pitched.advance (pitched.stepEff T)).capturePrev v.spos (v.decodeSample m v.spos)
  moved.tlRamp.ampAdvance.egTick

/-- The interpolated sample of the tick, steps 1 to 3. -/
def Voice.interpolated (m : Memory) (v : Voice) : Int :=
  interpolate (v.decodeSample m v.spos).toInt v.prev.toInt v.fpart

/-- The sample after the amplitude LFO (step 8) and the envelope gain (step 9), each product floored by itself
(44_mixer.md R292, R293). `w` is the voice after the tick's updates. -/
def gained (T : Config.Tables) (w : Voice) (s : Int) : Int :=
  floorShift (w.tremolo T s * w.eg.gain T) gainBits

/-- A playing voice's part of a tick (44_mixer.md R310). -/
def Voice.tickPlaying (T : Config.Tables) (m : Memory) (v : Voice) : VoiceTick :=
  let w := v.tickState T m
  let s := gained T w (v.interpolated m)
  let key := panKey w.pan (keyLevel T.tlKeySample v.tl w.tl)
  { voice := w, left := panProduct (T.panL key) s, right := panProduct (T.panR key) s }

/-- A voice's part of a tick: "A voice with `playing = 0` at the start of a tick takes no part in it" (44_mixer.md
R305). -/
def Voice.tick (T : Config.Tables) (m : Memory) (v : Voice) : VoiceTick :=
  if v.playing then v.tickPlaying T m else { voice := v, left := 0, right := 0 }

/-- The sums over the voices, saturated: the frame (44_mixer.md R297, R300). -/
def frameOf (T : Config.Tables) (m : Memory) (voices : List Voice) : Frame :=
  { left := saturate (voices.map fun v => (v.tick T m).left).sum
    right := saturate (voices.map fun v => (v.tick T m).right).sum }

/-- `TICK`: every voice is processed against the state at the start of the tick, and one frame is emitted
(44_mixer.md R310, R312). -/
def State.tick (T : Config.Tables) (s : State) : State :=
  { s with
    voices := Vector.ofFn fun i => ((s.voice i).tick T s.rom).voice
    frames := frameOf T s.rom s.voices.toList :: s.frames }

end Sys2Proof.Machine
end

