-- ==== Sys2Proof/Machine/Events.lean ====
section
/-! DEFINITION. The three events with no bus encoding: `TICK`, `RESET` and `CLOCK`. -/

namespace Sys2Proof.Machine

/-- `TICK` (44_mixer.md R310). -/
def execTick (s : State) : Host.Outcome State Fault Refusal := .next (s.tick tables)

/-- `RESET`: the selects and every field of every voice; not `R`, and nothing of the environment
(70_reset_and_hazards.md R360, R361). -/
def execReset (s : State) : Host.Outcome State Fault Refusal :=
  .next { s with
    selVoice := some 0
    selReg := 0
    voices := Vector.replicate voiceCount (Voice.reset tables) }

/-- `CLOCK(f_in)`: `R <- f_in / 224`. The frequency-step table follows the rate, because it is read at the current `R`
(`Tables.freqStep`); nothing else changes (70_reset_and_hazards.md R372). -/
def execClock (fIn : Rat) (s : State) : Host.Outcome State Fault Refusal :=
  .next { s with rate := fIn / clocksPerFrame }

end Sys2Proof.Machine
end

