-- ==== Sys2Proof/Machine/RegisterOps.lean ====
section
/-! DEFINITION. What a port-0 write does to the voice it is applied to: the shared procedures PITCH_UPDATE and
RETRIGGER, and one operation for each register (40_register_bank.md). Each stores the byte first (R145). -/

namespace Sys2Proof.Machine

/-! ### Shared procedures -/

/-- The step of PITCH_UPDATE, from the base frequency step `b`, the octave and the rate: `b << oct` or `b >> (-oct)`,
then `floor(s / R)`, every intermediate exact (40_register_bank.md R160). -/
def pitchStep (b : Nat) (oct : Int) (R : Rat) : Nat :=
  floorQuotient (if 0 ≤ oct then b * 2 ^ oct.toNat else b / 2 ^ (-oct).toNat) R

/-- `PITCH_UPDATE(v)` (40_register_bank.md R160). -/
def Voice.pitchUpdate (T : Config.Tables) (R : Rat) (v : Voice) : Voice :=
  let p := pitchFraction (v.reg 2) (v.reg 3)
  { v with step := pitchStep (T.freqStep R p) (octave (v.reg 3)) R }.egRecalc T

/-- `RETRIGGER(v)` (40_register_bank.md R170). -/
def Voice.retrigger (T : Config.Tables) (v : Voice) : Voice :=
  let w := { v with offset := 0, prev := 0, tl := storeTl (destValue v.destTl) }.egRecalc T
  { w with eg := { w.eg with state := .attack, vol := 0 } }

/-! ### One operation for each register -/

/-- Register 0 (40_register_bank.md R150). -/
def Voice.writePan (d : Byte) (v : Voice) : Voice := { v.storeReg 0 d with pan := panCode d }

/-- `APPLY(v, 6, d)` and `APPLY(v, 7, d)`: store, and recompute both LFO units when the byte is nonzero
(40_register_bank.md R168, R169). -/
def Voice.writeLfoReg (T : Config.Tables) (r : Fin 8) (d : Byte) (v : Voice) : Voice :=
  let w := v.storeReg r d
  if d ≠ 0 then w.lfoRecompute T else w

/-- Register 1: decode the header, cascade its LFO bytes into registers 6 and 7, latch base and format, recompute the
rates, and retrigger a voice that plays (40_register_bank.md R152). -/
def Voice.writeSample (T : Config.Tables) (m : Memory) (d : Byte) (v : Voice) : Voice :=
  let stored := v.storeReg 1 d
  let smp := headerDecode m (sampleIndex (stored.reg 1) (stored.reg 2))
  let cascaded := ({ stored with smp := smp }.writeLfoReg T 6 smp.lfoVib).writeLfoReg T 7 (smp.lfoAmp.setWidth 8)
  let loaded := { cascaded with base := smp.start, format := smp.format }.egRecalc T
  if loaded.playing then loaded.retrigger T else loaded

/-- Registers 2 and 3 (40_register_bank.md R156, R157). -/
def Voice.writePitch (T : Config.Tables) (R : Rat) (r : Fin 8) (d : Byte) (v : Voice) : Voice :=
  (v.storeReg r d).pitchUpdate T R

/-- Register 4 with `data[7] = 1` (40_register_bank.md R162). -/
def Voice.writeKeyon (T : Config.Tables) (d : Byte) (v : Voice) : Voice :=
  ((v.storeReg 4 d).setPlaying).retrigger T

/-- Register 4 with `data[7] = 0` (40_register_bank.md R163). -/
def Voice.writeKeyoff (d : Byte) (v : Voice) : Voice :=
  let w := v.storeReg 4 d
  if w.smp.rr = instantRelease then w.clearPlaying else { w with eg := { w.eg with state := .release } }

/-- Register 5 with `data[0] = 1` (40_register_bank.md R165). -/
def Voice.writeTlset (d : Byte) (v : Voice) : Voice :=
  { v.storeReg 5 d with destTl := destLevel d, tl := storeTl (destValue (destLevel d)) }

/-- Register 5 with `data[0] = 0`: the ramp step is chosen by the direction to the destination, on the full fixed-point
values (40_register_bank.md R166). -/
def Voice.writeTlramp (T : Config.Tables) (d : Byte) (v : Voice) : Voice :=
  { v.storeReg 5 d with
    destTl := destLevel d
    tlStep := if v.tl.toNat > destValue (destLevel d) then T.tlStepLower else T.tlStepRaise }

/-- `APPLY(v, r, d)`: the port-0 write to register `r`, whatever the register (40_register_bank.md R145). -/
def Voice.apply (T : Config.Tables) (m : Memory) (R : Rat) (r : BitVec 3) (d : Byte) (v : Voice) : Voice :=
  match r.toNat with
  | 0 => v.writePan d
  | 1 => v.writeSample T m d
  | 2 => v.writePitch T R 2 d
  | 3 => v.writePitch T R 3 d
  | 4 => if d.getLsbD 7 then v.writeKeyon T d else v.writeKeyoff d
  | 5 => if d.getLsbD 0 then v.writeTlset d else v.writeTlramp T d
  | 6 => v.writeLfoReg T 6 d
  | _ => v.writeLfoReg T 7 d

end Sys2Proof.Machine
end

