-- ==== Sys2Proof/Machine/RegisterBank.lean ====
section
/-! DEFINITION. `voice_register_bank`: the port-0 operations on the selected voice, one meaning each
(40_register_bank.md R150 to R169). With no voice selected each does nothing (R144; log entry 7). -/

namespace Sys2Proof.Machine

/-- `WR.PAN` (40_register_bank.md R150). -/
def execWrPan (data : Byte) (s : State) : Host.Outcome State Fault Refusal :=
  .next (s.onSelected fun v => v.writePan data)

/-- `WR.SAMPLE` (40_register_bank.md R152). -/
def execWrSample (data : Byte) (s : State) : Host.Outcome State Fault Refusal :=
  .next (s.onSelected fun v => v.writeSample tables s.rom data)

/-- `WR.PITCHL` (40_register_bank.md R156). -/
def execWrPitchl (data : Byte) (s : State) : Host.Outcome State Fault Refusal :=
  .next (s.onSelected fun v => v.writePitch tables s.rate 2 data)

/-- `WR.PITCHH` (40_register_bank.md R157). -/
def execWrPitchh (data : Byte) (s : State) : Host.Outcome State Fault Refusal :=
  .next (s.onSelected fun v => v.writePitch tables s.rate 3 data)

/-- `WR.KEYOFF` (40_register_bank.md R163). -/
def execWrKeyoff (data : Byte) (s : State) : Host.Outcome State Fault Refusal :=
  .next (s.onSelected fun v => v.writeKeyoff data)

/-- `WR.KEYON` (40_register_bank.md R162). -/
def execWrKeyon (data : Byte) (s : State) : Host.Outcome State Fault Refusal :=
  .next (s.onSelected fun v => v.writeKeyon tables data)

/-- `WR.TLRAMP` (40_register_bank.md R166). -/
def execWrTlramp (data : Byte) (s : State) : Host.Outcome State Fault Refusal :=
  .next (s.onSelected fun v => v.writeTlramp tables data)

/-- `WR.TLSET` (40_register_bank.md R165). -/
def execWrTlset (data : Byte) (s : State) : Host.Outcome State Fault Refusal :=
  .next (s.onSelected fun v => v.writeTlset data)

/-- `WR.LFO` (40_register_bank.md R168). -/
def execWrLfo (data : Byte) (s : State) : Host.Outcome State Fault Refusal :=
  .next (s.onSelected fun v => v.writeLfoReg tables 6 data)

/-- `WR.AM` (40_register_bank.md R169). -/
def execWrAm (data : Byte) (s : State) : Host.Outcome State Fault Refusal :=
  .next (s.onSelected fun v => v.writeLfoReg tables 7 data)

end Sys2Proof.Machine
end

