-- ==== Sys2Proof/Machine/Select.lean ====
section
/-! DEFINITION. The bus operations that change no voice: the two selects, the reserved port and a data write with no
voice selected (40_register_bank.md R141 to R144). -/

namespace Sys2Proof.Machine

/-- `SELV`: `sel_voice <- VOICE_TABLE[data[4:0]]` (40_register_bank.md R141). -/
def execSelv (data : Byte) (s : State) : Host.Outcome State Fault Refusal :=
  .next { s with selVoice := voiceTable (voiceCode data) }

/-- `SELR`: `sel_reg <- min(data, 7)` (40_register_bank.md R142). -/
def execSelr (data : Byte) (s : State) : Host.Outcome State Fault Refusal :=
  .next { s with selReg := registerSelect data }

/-- `RSVD.P3`: no state changes (40_register_bank.md R143). -/
def execRsvdP3 (_data : Byte) (s : State) : Host.Outcome State Fault Refusal := .next s

/-- `WR.NOVOICE`: no state changes (40_register_bank.md R144). -/
def execWrNovoice (_data : Byte) (s : State) : Host.Outcome State Fault Refusal := .next s

end Sys2Proof.Machine
end

