-- ==== Sys2Proof/Machine/Dispatch.lean ====
section
/-! DEFINITION. One arm for each operation. -/

namespace Sys2Proof.Machine

/-- The meaning of each operation of spec/opcode_table.json. -/
def exec (i : Instr) (s : State) : Host.Outcome State Fault Refusal :=
  match i with
  | .wrNovoice data => Sys2Proof.Machine.execWrNovoice data s
  | .wrPan data => Sys2Proof.Machine.execWrPan data s
  | .wrSample data => Sys2Proof.Machine.execWrSample data s
  | .wrPitchl data => Sys2Proof.Machine.execWrPitchl data s
  | .wrPitchh data => Sys2Proof.Machine.execWrPitchh data s
  | .wrKeyoff data => Sys2Proof.Machine.execWrKeyoff data s
  | .wrKeyon data => Sys2Proof.Machine.execWrKeyon data s
  | .wrTlramp data => Sys2Proof.Machine.execWrTlramp data s
  | .wrTlset data => Sys2Proof.Machine.execWrTlset data s
  | .wrLfo data => Sys2Proof.Machine.execWrLfo data s
  | .wrAm data => Sys2Proof.Machine.execWrAm data s
  | .selv data => Sys2Proof.Machine.execSelv data s
  | .selr data => Sys2Proof.Machine.execSelr data s
  | .rsvdP3 data => Sys2Proof.Machine.execRsvdP3 data s
  | .tick => Sys2Proof.Machine.execTick s
  | .reset => Sys2Proof.Machine.execReset s
  | .clock fIn => Sys2Proof.Machine.execClock fIn s

end Sys2Proof.Machine
end

