-- ==== Sys2Proof/Machine/Step.lean ====
section
/-! DEFINITION. One step: one event, applied whole (00_scope.md R6, 20_memory.md R82). -/

namespace Sys2Proof.Machine

/-- Take the next event, decode it by the state before the event (30_encoding.md R104), and apply the operation it
stands for (40_register_bank.md R140). -/
def step (s : State) : Host.Outcome State Fault Refusal :=
  match decode s.voiceValid s.selReg s.nextEvent with
  | .ok i => exec i s.popEvent
  | .error .clockNotPositive => .refused .clockNotPositive

/-- The state in which the next step runs the operation of a word of spec/opcode_table.json, which is a decode key
(30_encoding.md R104): the key's bus word is the next event and its two state inputs hold. A number that is no word of
the table changes nothing. The decoder's bits above the key do not exist (log entry 5). -/
def State.withFetchWord (s : State) (nbits w : Nat) : State :=
  if nbits = 0 then s
  else if w < 2 ^ 14 then s.placeKey (BitVec.ofNat 14 w) else s

end Sys2Proof.Machine
end

