-- ==== Sys2Proof/Safety.lean ====
section
/-! DEFINITION. The terms the claims use: which parts of the state an operation leaves alone, runs of steps, and the
invariants of the machine. -/

namespace Sys2Proof.Machine

/-! ### Frames -/

/-- Everything outside the voices is the same in both states: the selects, the rate, the ROM as a whole and read byte
by byte, the events still pending and the frames emitted. -/
def SameOutsideVoices (s t : State) : Prop :=
  t.selVoice = s.selVoice ∧ t.selReg = s.selReg ∧ t.rate = s.rate ∧ t.rom = s.rom ∧
    (∀ a, memRead t.rom a = memRead s.rom a) ∧ t.pending = s.pending ∧ t.frames = s.frames

/-- Every voice is the same in both states. -/
def SameVoices (s t : State) : Prop := ∀ v, t.voice v = s.voice v

/-- At most voice `v` differs between the two states. -/
def OnlyVoiceDiffers (v : VoiceId) (s t : State) : Prop :=
  SameOutsideVoices s t ∧ ∀ w, w ≠ v → t.voice w = s.voice w

/-- The event is a bus write to one of the four ports (00_scope.md R6). -/
def Event.IsWrite : Event → Prop
  | .write _ _ => True
  | .tick => False
  | .clock _ => False
  | .reset => False

/-! ### Runs -/

/-- The state after `n` steps, when none of them stops. -/
def runSteps : Nat → State → Host.Outcome State Fault Refusal
  | 0, s => .next s
  | n + 1, s =>
    match step s with
    | .next t => runSteps n t
    | .fault f => .fault f
    | .refused r => .refused r

/-- No voice plays. -/
def Silent (s : State) : Prop := ∀ v, (s.voice v).playing = false

/-! ### Invariants -/

/-- The stored values of a voice lie in the ranges the rules give them: the offset (10_state.md R40), the total level
(R44) and the envelope volume (R46). -/
def Voice.InRange (v : Voice) : Prop :=
  v.offset.toNat ≤ 0xFFFF * 2 ^ Config.fracBits ∧ v.tl.toNat ≤ 0x7F * 2 ^ Config.tlShift ∧ v.eg.vol.toNat ≤ egCeiling

/-- The machine's values lie in their ranges: every voice's, and the frame rate is positive (00_scope.md R10). The
model's own clauses: the ROM's listing is canonical (log entry 4), and the pending events (log entry 5) are well-formed
(log entry 8). -/
def State.InRange (s : State) : Prop :=
  (∀ v, (s.voice v).InRange) ∧ 0 < s.rate ∧ s.rom.wf = true ∧ ∀ e ∈ s.pending, e.wellFormed = true

/-- The ramp step is one of the three values of 10_state.md R44, and it points toward the destination whenever the total
level is not there (44_mixer.md R291). -/
def Voice.RampAimed (v : Voice) : Prop :=
  (v.tlStep = 0 ∨ v.tlStep = tables.tlStepRaise ∨ v.tlStep = tables.tlStepLower) ∧
    (v.tl.toNat < destValue v.destTl → 0 < v.tlStep) ∧ (destValue v.destTl < v.tl.toNat → v.tlStep < 0)

/-- The latched fields of a voice agree with the registers and metadata they were latched from: the pan code
(10_state.md R37), the destination level (R44), the base and the format (R39, 43_sample_decode.md R264), and the rates
and threshold, which "equal what `EG_RECALC` gives for the current `regs[3]` and `smp`" (41_envelope.md R192). -/
def Voice.Latched (v : Voice) : Prop :=
  v.pan = panCode (v.reg 0) ∧ v.destTl = destLevel (v.reg 5) ∧ v.base = v.smp.start ∧ v.format = v.smp.format ∧
    v.egRecalc tables = v

/-- The two LFO units of a voice have the same latched phase step (42_lfo.md R220, R221), and a unit that is enabled has
the depth its own register holds; the pitch unit then also has register 6's phase step (R221, R222). -/
def Voice.LfoLatched (v : Voice) : Prop :=
  v.plfo.pstep = v.alfo.pstep ∧
    (v.reg 6 ≠ 0 → v.plfo.depth = pitchDepth (v.reg 6) ∧ v.plfo.pstep = phaseStep tables (lfoFrequency (v.reg 6))) ∧
    (v.reg 7 ≠ 0 → v.alfo.depth = ampDepth (v.reg 7))

/-- The previous sample is a decoded sample, whose low four bits are zero in both formats (10_state.md R42,
43_sample_decode.md R261, R263). -/
def Voice.PrevDecoded (v : Voice) : Prop := v.prev.extractLsb' 0 4 = 0

end Sys2Proof.Machine
end

