-- ==== Sys2Proof/Certificates/Slice0/Obligations.lean ====
section
/-! DEFINITION. The statements for the provers. Each docstring names the rule of spec/ it formalises, or says that it is
derived. The numbers 4096, 65536 and 224 are `2^FRACBITS = 2^TL_SHIFT = 2^MOD_BITS`, `2^EG_SHIFT` and the clocks of a
frame. -/

open Sys2Proof Sys2Proof.Machine

/-! ### Encoding and decoding -/

/-- Decoding the event an operation is encoded as, with the state inputs its row fixes, gives the operation back: for
every operation of the table, with every operand its row admits. Derived from 30_encoding.md sections 1 and 2. -/
def Obligations.DecodeInvertsEncode : Prop :=
  ∀ (i : Instr), i.wellFormed = true → ∀ (voiceValid : Bool) (selReg : BitVec 3),
    decode (i.keyValid voiceValid) (i.keySel selReg) (encode i) = .ok i

/-- An operation the decoder gives is well-formed and encodes to the very event it was read from, and its row fixes
neither state input to another value: no bit of an event is lost. Derived from 30_encoding.md sections 1 and 2. -/
def Obligations.EncodeInvertsDecode : Prop :=
  ∀ (voiceValid : Bool) (selReg : BitVec 3) (e : Event) (i : Instr), decode voiceValid selReg e = .ok i →
    i.wellFormed = true ∧ encode i = e ∧ i.keyValid voiceValid = voiceValid ∧ i.keySel selReg = selReg

/-- R104: the key's four fields, taken from the state before the write; exactly one row of the table matches every key,
and it is the row of the operation the write performs. -/
def Obligations.EveryKeyMatchesExactlyOneRow : Prop :=
  (∀ k : DecodeKey, ∃ r ∈ opcodeRows, k &&& r.mask = r.pattern ∧ (decodeKey k).mnemonic = r.mnemonic ∧
    ∀ r' ∈ opcodeRows, k &&& r'.mask = r'.pattern → r' = r) ∧
  ∀ (s : State) (port : Port) (data : Byte) (rest : List Event), s.pending = .write port data :: rest →
    ∃ k : DecodeKey, k.getLsbD 13 = s.selVoice.isSome ∧ k.extractLsb' 10 3 = s.selReg ∧ k.extractLsb' 8 2 = port ∧
      k.extractLsb' 0 8 = data ∧ step s = exec (decodeKey k) { s with pending := rest }

/-- A step takes the next event off the pending list, decodes it by the state before it, and is `exec` of the decoded
operation. The model's own clauses (log entries 5 and 8): with no event pending the next event is the frame clock's
`TICK`; a `CLOCK` that is not positive is refused. -/
def Obligations.StepRunsTheDecodedOperation : Prop :=
  (∀ (s : State) (i : Instr), decode s.voiceValid s.selReg s.nextEvent = .ok i →
    step s = exec i { s with pending := s.pending.tail }) ∧
  (∀ (s : State) (e : Event) (rest : List Event), s.pending = e :: rest → s.nextEvent = e) ∧
  (∀ s : State, s.pending = [] → s.nextEvent = .tick) ∧
  ∀ (s : State) (f : Rat), s.nextEvent = .clock f → ¬ 0 < f → step s = .refused .clockNotPositive

/-- A word of the table placed as the next event is the operation the next step runs, with the key's state inputs.
The model's own host interface (log entry 5). -/
def Obligations.PlacedWordRuns : Prop :=
  ∀ (s : State) (nbits w : Nat), nbits ≠ 0 → w < 2 ^ 14 → ∃ (i : Instr) (s' : State),
    decodeTableWord nbits w = some i ∧ step (s.withFetchWord nbits w) = exec i s' ∧
    s'.voices = s.voices ∧ s'.rate = s.rate ∧ s'.rom = s.rom ∧ s'.pending = s.pending ∧ s'.frames = s.frames ∧
    s'.selReg.toNat = w / 1024 % 8 ∧ s'.selVoice.isSome = w.testBit 13

/-- The sixteen decode keys of the spec's table of keys decode to the operations it names. Derived from
95_test_vectors.md section 2, table V-R. -/
def Obligations.SpecKeysDecode : Prop :=
  decodeTableWord 16 0x0C12 = some (.wrNovoice 0x12) ∧ decodeTableWord 16 0x1080 = some (.wrNovoice 0x80) ∧
  decodeTableWord 16 0x208F = some (.wrPan 0x8F) ∧
  decodeTableWord 16 0x2405 = some (.wrSample 0x05) ∧ decodeTableWord 16 0x28FC = some (.wrPitchl 0xFC) ∧
  decodeTableWord 16 0x2C8F = some (.wrPitchh 0x8F) ∧ decodeTableWord 16 0x307F = some (.wrKeyoff 0x7F) ∧
  decodeTableWord 16 0x3080 = some (.wrKeyon 0x80) ∧ decodeTableWord 16 0x30FF = some (.wrKeyon 0xFF) ∧
  decodeTableWord 16 0x3464 = some (.wrTlramp 0x64) ∧
  decodeTableWord 16 0x3465 = some (.wrTlset 0x65) ∧ decodeTableWord 16 0x3800 = some (.wrLfo 0x00) ∧
  decodeTableWord 16 0x3C08 = some (.wrAm 0x08) ∧ decodeTableWord 16 0x1D00 = some (.selv 0x00) ∧
  decodeTableWord 16 0x2A09 = some (.selr 0x09) ∧ decodeTableWord 16 0x2BFF = some (.rsvdP3 0xFF)

/-- No event of the spec stops the machine: whatever the state, a step whose next event is a bus write, a `TICK`, a
`RESET` or a `CLOCK` with a positive frequency answers a next state. Derived from 60_exceptions.md section 1. -/
def Obligations.EveryEventCompletes : Prop :=
  ∀ s : State, s.nextEvent.wellFormed = true → ∃ t, step s = .next t

/-! ### The select ports -/

/-- R141 and R106: `SELV` selects voice `7*c[4:3] + c[2:0]` for the code `c = data[4:0]`, or no voice when
`c[2:0] = 7`, and changes nothing else. -/
def Obligations.SelvSelectsTheTableVoice : Prop :=
  (∀ data : Byte, busWord 1 data = 0x100#10 ||| data.setWidth 10) ∧
  (∀ (voiceValid : Bool) (selReg : BitVec 3) (data : Byte),
    decode voiceValid selReg (.write 1 data) = .ok (.selv data)) ∧
  (∀ (data : Byte) (s : State), ∃ t, exec (.selv data) s = .next t ∧ t = { s with selVoice := t.selVoice } ∧
    (data.toNat % 8 = 7 → t.selVoice = none) ∧
    (data.toNat % 8 ≠ 7 →
      ∃ v : VoiceId, v.val = 7 * (data.toNat % 32 / 8) + data.toNat % 8 ∧ t.selVoice = some v)) ∧
  ∀ s : State, exec (.selv 0x29) s = .next { s with selVoice := some 8 }

/-- R142 and R107: `SELR` selects register `min(data, 7)` and changes nothing else. -/
def Obligations.SelrClampsTheRegister : Prop :=
  (∀ data : Byte, busWord 2 data = 0x200#10 ||| data.setWidth 10) ∧
  (∀ (voiceValid : Bool) (selReg : BitVec 3) (data : Byte),
    decode voiceValid selReg (.write 2 data) = .ok (.selr data)) ∧
  (∀ (data : Byte) (s : State), ∃ t, exec (.selr data) s = .next t ∧ t = { s with selReg := t.selReg } ∧
    t.selReg.toNat = min data.toNat 7) ∧
  ∀ s : State, exec (.selr 0x09) s = .next { s with selReg := 7 }

/-- R143: a write to port 3 changes no state. -/
def Obligations.ReservedPortChangesNothing : Prop :=
  (∀ data : Byte, busWord 3 data = 0x300#10 ||| data.setWidth 10) ∧
  (∀ (voiceValid : Bool) (selReg : BitVec 3) (data : Byte),
    decode voiceValid selReg (.write 3 data) = .ok (.rsvdP3 data)) ∧
  (∀ (data : Byte) (s : State), exec (.rsvdP3 data) s = .next s) ∧
  ∀ (s : State) (rest : List Event), s.pending = .write 3 0xFF :: rest → step s = .next { s with pending := rest }

/-- R144: a port-0 write with no voice selected changes no state, and so does every later one until a `SELV` (or a
`RESET`): any run of port-0 writes leaves everything as it was. -/
def Obligations.NoVoiceWritesChangeNothing : Prop :=
  (∀ (selReg : BitVec 3) (data : Byte), decode false selReg (.write 0 data) = .ok (.wrNovoice data)) ∧
  (∀ (data : Byte) (s : State), exec (.wrNovoice data) s = .next s) ∧
  (∀ (ds : List Byte) (s : State) (rest : List Event), s.selVoice = none →
    s.pending = ds.map (Event.write 0) ++ rest → runSteps ds.length s = .next { s with pending := rest }) ∧
  (∀ s t : State, s.selVoice = none → (∀ d, s.nextEvent ≠ .write 1 d) → s.nextEvent ≠ .reset → step s = .next t →
    t.selVoice = none) ∧
  ∀ (s : State) (rest : List Event), s.pending = .write 1 0x07 :: .write 2 4 :: .write 0 0x80 :: rest →
    runSteps 3 s = .next { s with selVoice := none, selReg := 4, pending := rest }

/-- The ten register operations do nothing at all when no voice is selected: a port-0 write then is a no-op, whatever
register it is for. The model's completion of states the decoder never gives them (log entry 7). -/
def Obligations.RegisterWritesNeedAVoice : Prop :=
  ∀ (s : State) (d : Byte), s.selVoice = none →
    exec (.wrPan d) s = .next s ∧ exec (.wrSample d) s = .next s ∧ exec (.wrPitchl d) s = .next s ∧
    exec (.wrPitchh d) s = .next s ∧ exec (.wrKeyoff d) s = .next s ∧ exec (.wrKeyon d) s = .next s ∧
    exec (.wrTlramp d) s = .next s ∧ exec (.wrTlset d) s = .next s ∧ exec (.wrLfo d) s = .next s ∧
    exec (.wrAm d) s = .next s

/-! ### Register writes -/

/-- A port-0 write with a voice selected stores the byte in the selected register and applies that register's effect
to that voice alone; a register-1 write also stores registers 6 and 7, and no other register changes. Derived from
40_register_bank.md section 1. -/
def Obligations.DataWriteStoresTheByte : Prop :=
  ∀ (s : State) (v : VoiceId) (d : Byte) (rest : List Event) (r : Fin 8), s.selVoice = some v →
    s.pending = .write 0 d :: rest → s.selReg.toNat = r.val →
    ∃ t, step s = .next t ∧ OnlyVoiceDiffers v { s with pending := rest } t ∧
      t.voice v = (s.voice v).apply tables s.rom s.rate s.selReg d ∧ (t.voice v).reg r = d ∧
      ∀ q : Fin 8, q ≠ r → (r ≠ 1 ∨ (q ≠ 6 ∧ q ≠ 7)) → (t.voice v).reg q = (s.voice v).reg q

/-- R150: `WR.PAN` stores the byte and makes its top nibble the pan code; pan code 8 then silences the voice in both
channels from the next tick on. Nothing else changes. -/
def Obligations.WrPanSetsThePanCode : Prop :=
  (∀ (data : Byte), decode true 0 (.write 0 data) = .ok (.wrPan data)) ∧
  (∀ (s : State) (v : VoiceId) (data : Byte), s.selVoice = some v →
    ∃ t, exec (.wrPan data) s = .next t ∧ OnlyVoiceDiffers v s t ∧
      (∃ p : BitVec 4, p.toNat = data.toNat / 16 ∧
        t.voice v = { s.voice v with regs := (s.voice v).regs.set 0 data, pan := p }) ∧
      (data.toNat / 16 = 8 → ((t.voice v).tick tables t.rom).left = 0 ∧ ((t.voice v).tick tables t.rom).right = 0)) ∧
  ∀ (s : State) (v : VoiceId), s.selVoice = some v →
    ∃ t, exec (.wrPan 0x8F) s = .next t ∧ (t.voice v).pan = 8

/-- `WR.SAMPLE` reads the header of sample `256 * regs[2][0] + data`, replaces the metadata, copies the header's LFO
bytes into registers 6 and 7 with their side effects, latches base and format, recomputes the rates, and restarts the
voice if it plays. Derived from 40_register_bank.md sections 2 and 3. -/
def Obligations.WrSampleLoadsTheHeader : Prop :=
  ∀ (s : State) (v : VoiceId) (data : Byte), s.selVoice = some v →
    ∃ t, exec (.wrSample data) s = .next t ∧ OnlyVoiceDiffers v s t ∧
      ∃ idx : BitVec 9, idx.toNat = 256 * (((s.voice v).reg 2).toNat % 2) + data.toNat ∧
        let x := s.voice v
        let y := t.voice v
        let h := headerDecode s.rom idx
        y.smp = h ∧ y.base = h.start ∧ y.format = h.format ∧
        y.regs = ((x.regs.set 1 data).set 6 h.lfoVib).set 7 (h.lfoAmp.setWidth 8) ∧
        y.pan = x.pan ∧ y.step = x.step ∧ y.playing = x.playing ∧ y.destTl = x.destTl ∧ y.tlStep = x.tlStep ∧
        y.eg.ar = getRate tables.attackStep (keyRate h.krs (x.reg 3)) h.ar ∧
        y.eg.d1r = getRate tables.decayStep (keyRate h.krs (x.reg 3)) h.d1r ∧
        y.eg.d2r = getRate tables.decayStep (keyRate h.krs (x.reg 3)) h.d2r ∧
        y.eg.rr = getRate tables.decayStep (keyRate h.krs (x.reg 3)) h.rr ∧
        y.eg.thr.toNat = 15 - h.dl.toNat ∧
        y.plfo.phase = x.plfo.phase ∧ y.alfo.phase = x.alfo.phase ∧
        (h.lfoVib = 0 → h.lfoAmp = 0 → y.plfo = x.plfo ∧ y.alfo = x.alfo) ∧
        (h.lfoVib ≠ 0 ∨ h.lfoAmp ≠ 0 →
          y.plfo.pstep = phaseStep tables (h.lfoVib.extractLsb' 3 3) ∧ y.alfo.pstep = y.plfo.pstep ∧
          y.plfo.depth = h.lfoVib.extractLsb' 0 3) ∧
        (h.lfoAmp ≠ 0 → y.alfo.depth = h.lfoAmp.extractLsb' 0 3) ∧
        (h.lfoVib ≠ 0 → h.lfoAmp = 0 → y.alfo.depth = (x.reg 7).extractLsb' 0 3) ∧
        (x.playing = true → y.offset = 0 ∧ y.prev = 0 ∧ y.tl.toNat = x.destTl.toNat * 4096 ∧ y.eg.state = .attack ∧
          y.eg.vol = 0) ∧
        (x.playing = false → y.offset = x.offset ∧ y.prev = x.prev ∧ y.tl = x.tl ∧ y.eg.state = x.eg.state ∧
          y.eg.vol = x.eg.vol)

/-- R119: the octave is the signed 4-bit value of the octave field less the bias, so fields 1 to 8 give 0 to 7 and
fields 9 to 15 and 0 give -8 to -1, and the pitch fraction is `{regs[3][3:0], regs[2][7:2]}`. -/
def Obligations.OctaveAndPitchFraction : Prop :=
  ∀ reg2 reg3 : Byte,
    (reg3.toNat / 16 = 0 → octave reg3 = -1) ∧
    (1 ≤ reg3.toNat / 16 ∧ reg3.toNat / 16 ≤ 8 → octave reg3 = (reg3.toNat / 16 : Nat) - (1 : Int)) ∧
    (9 ≤ reg3.toNat / 16 → octave reg3 = (reg3.toNat / 16 : Nat) - (17 : Int)) ∧
    (pitchFraction reg2 reg3).toNat = reg3.toNat % 16 * 64 + reg2.toNat / 4

/-- A pitch write, `WR.PITCHL` or `WR.PITCHH`, stores its byte and makes the step the greatest natural whose product
with the rate is at most the base frequency step shifted by the octave, every intermediate exact; it recomputes the
envelope rates and changes nothing else. Derived from 40_register_bank.md section 2. -/
def Obligations.PitchWritesSetTheStep : Prop :=
  ∀ (s : State) (v : VoiceId) (data : Byte), s.selVoice = some v → 0 < s.rate →
    ∀ (i : Instr) (r : Fin 8), (i = .wrPitchl data ∧ r = 2) ∨ (i = .wrPitchh data ∧ r = 3) →
    ∃ t, exec i s = .next t ∧ OnlyVoiceDiffers v s t ∧
      let x := s.voice v
      let y := t.voice v
      let kr := keyRate x.smp.krs (y.reg 3)
      let b := tables.freqStep s.rate (pitchFraction (y.reg 2) (y.reg 3))
      let shifted := if 0 ≤ octave (y.reg 3) then b * 2 ^ (octave (y.reg 3)).toNat
        else b / 2 ^ (-octave (y.reg 3)).toNat
      (y.step : Rat) * s.rate ≤ shifted ∧ (shifted : Rat) < (y.step + 1) * s.rate ∧
      y = { x with
        regs := x.regs.set r data
        step := y.step
        eg := { x.eg with
          ar := getRate tables.attackStep kr x.smp.ar
          d1r := getRate tables.decayStep kr x.smp.d1r
          d2r := getRate tables.decayStep kr x.smp.d2r
          rr := getRate tables.decayStep kr x.smp.rr
          thr := 15 - x.smp.dl } }

/-- `WR.KEYON` starts the voice, whatever it was doing: it plays, from offset 0, with previous sample 0, the total level
at its destination, and the envelope in ATTACK at volume 0 with its rates recomputed. Nothing else changes, no LFO field
among it. Derived from 40_register_bank.md sections 2 and 3. -/
def Obligations.WrKeyonRestartsTheVoice : Prop :=
  ∀ (s : State) (v : VoiceId) (data : Byte), s.selVoice = some v →
    ∃ t, exec (.wrKeyon data) s = .next t ∧ OnlyVoiceDiffers v s t ∧
      let x := s.voice v
      let y := t.voice v
      let kr := keyRate x.smp.krs (x.reg 3)
      y.tl.toNat = x.destTl.toNat * 4096 ∧
      y = { x with
        regs := x.regs.set 4 data
        playing := true
        offset := 0
        prev := 0
        tl := y.tl
        eg := {
          state := .attack
          vol := 0
          ar := getRate tables.attackStep kr x.smp.ar
          d1r := getRate tables.decayStep kr x.smp.d1r
          d2r := getRate tables.decayStep kr x.smp.d2r
          rr := getRate tables.decayStep kr x.smp.rr
          thr := 15 - x.smp.dl } }

/-- `WR.KEYOFF` stops the voice at once when its release code is the instant one, 15, and otherwise puts its envelope in
RELEASE with the volume kept, whether or not the voice plays. Derived from 40_register_bank.md section 2. -/
def Obligations.WrKeyoffReleasesTheVoice : Prop :=
  ∀ (s : State) (v : VoiceId) (data : Byte), s.selVoice = some v →
    ∃ t, exec (.wrKeyoff data) s = .next t ∧ OnlyVoiceDiffers v s t ∧
      let x := s.voice v
      (x.smp.rr.toNat = 15 → t.voice v = { x with regs := x.regs.set 4 data, playing := false }) ∧
      (x.smp.rr.toNat ≠ 15 →
        t.voice v = { x with regs := x.regs.set 4 data, eg := { x.eg with state := .release } })

/-- `WR.TLSET` makes the top seven bits the destination and the level at once; `tl_step` is kept. Derived from
40_register_bank.md section 2. -/
def Obligations.WrTlsetSetsTheLevel : Prop :=
  ∀ (s : State) (v : VoiceId) (data : Byte), s.selVoice = some v →
    ∃ t, exec (.wrTlset data) s = .next t ∧ OnlyVoiceDiffers v s t ∧
      let x := s.voice v
      let y := t.voice v
      y.destTl.toNat = data.toNat / 2 ∧ y.tl.toNat = data.toNat / 2 * 4096 ∧
      y = { x with regs := x.regs.set 5 data, destTl := y.destTl, tl := y.tl }

/-- `WR.TLRAMP` makes the top seven bits the destination and picks the ramp step by comparing the full fixed-point
level with it; the level itself does not change. Derived from 40_register_bank.md section 2. -/
def Obligations.WrTlrampChoosesTheStep : Prop :=
  ∀ (s : State) (v : VoiceId) (data : Byte), s.selVoice = some v →
    ∃ t, exec (.wrTlramp data) s = .next t ∧ OnlyVoiceDiffers v s t ∧
      let x := s.voice v
      let y := t.voice v
      y.destTl.toNat = data.toNat / 2 ∧
      (x.tl.toNat > data.toNat / 2 * 4096 → y.tlStep = tables.tlStepLower ∧ y.tlStep < 0) ∧
      (x.tl.toNat ≤ data.toNat / 2 * 4096 → y.tlStep = tables.tlStepRaise ∧ 0 < y.tlStep) ∧
      y = { x with regs := x.regs.set 5 data, destTl := y.destTl, tlStep := y.tlStep }

/-- `WR.LFO` and `WR.AM` store the byte; a zero byte does nothing more; a nonzero byte latches in both units the phase
step of register 6's frequency, in the pitch unit register 6's depth and in the amplitude unit register 7's. No phase
changes. Derived from 40_register_bank.md section 2. -/
def Obligations.LfoWritesLatchBothUnits : Prop :=
  ∀ (s : State) (v : VoiceId) (data : Byte), s.selVoice = some v →
    ∀ (i : Instr) (r : Fin 8), (i = .wrLfo data ∧ r = 6) ∨ (i = .wrAm data ∧ r = 7) →
    ∃ t, exec i s = .next t ∧ OnlyVoiceDiffers v s t ∧
      let x := s.voice v
      let y := t.voice v
      (data = 0 → y = { x with regs := x.regs.set r 0 }) ∧
      (data ≠ 0 → ∃ n : BitVec 16, n.toNat = tables.lfoPhaseStep ((y.reg 6).extractLsb' 3 3) % 65536 ∧
        y = { x with
          regs := x.regs.set r data
          plfo := { x.plfo with pstep := n, depth := (y.reg 6).extractLsb' 0 3 }
          alfo := { x.alfo with pstep := n, depth := (y.reg 7).extractLsb' 0 3 } })

/-! ### Events -/

/-- R360 and R50: `RESET` sets the selects and every field of every voice to its reset value and keeps `R`; power-on is
the same state with `R = INPUT_CLOCK / 224`. -/
def Obligations.ResetSetsEveryField : Prop :=
  (∀ s : State, ∃ t, exec .reset s = .next t ∧ t.selVoice = some 0 ∧ t.selReg = 0 ∧ t.rate = s.rate ∧
    t.rom = s.rom ∧ t.pending = s.pending ∧ t.frames = s.frames ∧ t.voices = State.reset.voices) ∧
  State.reset.selVoice = some 0 ∧ State.reset.selReg = 0 ∧ State.reset.rate = inputClock / 224 ∧
  ∀ v : VoiceId,
    let y := State.reset.voice v
    (∀ r : Fin 8, y.reg r = 0) ∧ y.pan = 0 ∧ y.base = 0 ∧ y.format = .linear8 ∧
    y.smp.start = 0 ∧ y.smp.format = .linear8 ∧ y.smp.loopPos = 0 ∧ y.smp.endPos = 0 ∧ y.smp.ar = 0 ∧ y.smp.d1r = 0 ∧
    y.smp.d2r = 0 ∧ y.smp.dl = 0 ∧ y.smp.rr = 0 ∧ y.smp.krs = 0 ∧ y.smp.lfoVib = 0 ∧ y.smp.lfoAmp = 0 ∧
    y.offset = 0 ∧ y.step = 0 ∧ y.prev = 0 ∧ y.playing = false ∧ y.tl = 0 ∧ y.destTl = 0 ∧ y.tlStep = 0 ∧
    y.eg.state = .attack ∧ y.eg.vol = 0 ∧ y.eg.ar = tables.attackStep 0 ∧ y.eg.d1r = tables.decayStep 0 ∧
    y.eg.d2r = tables.decayStep 0 ∧ y.eg.rr = tables.decayStep 0 ∧ y.eg.thr = 15 ∧
    y.plfo.phase = 0 ∧ y.plfo.pstep = 0 ∧ y.plfo.depth = 0 ∧ y.alfo.phase = 0 ∧ y.alfo.pstep = 0 ∧ y.alfo.depth = 0

/-- R372: `CLOCK(f_in)` makes the rate `f_in / 224` and changes nothing else, no voice and no frame among it; the
frequency-step table that the next pitch write reads is the one for the new rate. -/
def Obligations.ClockChangesOnlyTheRate : Prop :=
  ∀ (s : State) (f : Rat), ∃ t, exec (.clock f) s = .next t ∧ t = { s with rate := t.rate } ∧ t.rate * 224 = f ∧
    ∀ (v : VoiceId) (d : Byte), s.selVoice = some v → ∃ u, exec (.wrPitchl d) t = .next u ∧
      (u.voice v).step = pitchStep (tables.freqStep (f / 224) (pitchFraction d ((s.voice v).reg 3)))
        (octave ((s.voice v).reg 3)) (f / 224)

/-- R361: after `RESET` no voice plays, and `RESET` depends on no ROM byte and emits no frame; and as long as no voice
plays and no key-on is applied, no voice starts to play and every `TICK` emits `(0, 0)`. -/
def Obligations.SilentUntilKeyon : Prop :=
  (∀ s : State, ∃ t, exec .reset s = .next t ∧ Silent t ∧ t.frames = s.frames ∧
    ∀ m : Memory, exec .reset { s with rom := m } = .next { t with rom := m }) ∧
  ∀ (s : State) (i : Instr), Silent s → (∀ d, i ≠ .wrKeyon d) → ∃ t, exec i s = .next t ∧ Silent t ∧
    (i = .tick → t.frames = { left := 0, right := 0 } :: s.frames)

/-! ### Rates -/

/-- R191: `GET_RATE` is entry 0 for code 0, entry 63 for code 15, and otherwise the entry at `4*code + kr` clamped to
the table at both ends. -/
def Obligations.GetRateClampsTheIndex : Prop :=
  ∀ (t : BitVec 6 → Nat) (kr : Int) (code : BitVec 4),
    (code.toNat = 0 → getRate t kr code = t 0) ∧
    (code.toNat = 15 → getRate t kr code = t 63) ∧
    (code.toNat ≠ 0 → code.toNat ≠ 15 → 4 * (code.toNat : Int) + kr < 0 → getRate t kr code = t 0) ∧
    (code.toNat ≠ 0 → code.toNat ≠ 15 → 63 < 4 * (code.toNat : Int) + kr → getRate t kr code = t 63) ∧
    ∀ i : BitVec 6, code.toNat ≠ 0 → code.toNat ≠ 15 → 4 * (code.toNat : Int) + kr = i.toNat → getRate t kr code = t i

/-- R193: the key rate is 0 for key-rate scale 15, and else `(oct + krs)*2 + regs[3][3]`; it lies in -16 to 43. -/
def Obligations.KeyRateFormula : Prop :=
  ∀ (krs : BitVec 4) (reg3 : Byte),
    (krs.toNat = 15 → keyRate krs reg3 = 0) ∧
    (krs.toNat ≠ 15 → keyRate krs reg3 = (octave reg3 + krs.toNat) * 2 + (reg3.toNat / 8 % 2 : Nat)) ∧
    -16 ≤ keyRate krs reg3 ∧ keyRate krs reg3 ≤ 43 ∧
    (octave reg3 + 1 - (reg3.toNat / 16 : Nat)) % 16 = 0 ∧ -8 ≤ octave reg3 ∧ octave reg3 ≤ 7

/-! ### Samples -/

/-- R80: no address computation leaves 24 bits: the header bytes, the linear-8 byte and the packed-linear-12 bytes are
read at exactly the addresses the rules name, the largest of them `0x217FFE`. -/
def Obligations.AddressesStayInTheRom : Prop :=
  (∀ (idx : BitVec 9) (n : Nat), n < 12 →
    (headerAddr idx n).toNat = idx.toNat * 12 + n ∧ (headerAddr idx n).toNat ≤ 6143) ∧
  (∀ (base : BitVec 21) (spos : BitVec 16), base.toNat ≤ 0x1FFFFF ∧ spos.toNat ≤ 0xFFFF) ∧
  (∀ (m : Memory) (base : BitVec 21) (spos : BitVec 16), base.toNat + spos.toNat < 2 ^ 24 ∧
    dataByte m base spos.toNat = m.lookup (base.toNat + spos.toNat)) ∧
  ∀ (m : Memory) (base : BitVec 21) (spos : BitVec 16) (n : Nat), n < 6 →
    base.toNat + (spos.toNat / 4 * 6 + n) ≤ 0x217FFE ∧
    dataByte m base (spos.toNat / 4 * 6 + n) = m.lookup (base.toNat + (spos.toNat / 4 * 6 + n))

/-- R255, and every other field of the metadata: what the twelve header bytes of a sample give, multi-byte fields
big-endian; the metadata changes at `WR.SAMPLE` and `RESET` alone. -/
def Obligations.HeaderFields : Prop :=
  (∀ (m : Memory) (idx : BitVec 9),
    let b := fun n : Nat => (m.lookup (idx.toNat * 12 + n)).toNat
    let h := headerDecode m idx
    h.start.toNat = (b 0 * 65536 + b 1 * 256 + b 2) % 2097152 ∧
    (h.format = .packed12 ↔ 128 ≤ b 0) ∧
    h.loopPos.toNat = b 3 * 256 + b 4 ∧
    h.endPos.toNat = 65535 - (b 5 * 256 + b 6) ∧
    h.lfoVib.toNat = b 7 ∧
    h.ar.toNat = b 8 / 16 ∧ h.d1r.toNat = b 8 % 16 ∧
    h.d2r.toNat = b 9 % 16 ∧ h.dl.toNat = b 9 / 16 ∧
    h.rr.toNat = b 10 % 16 ∧ h.krs.toNat = b 10 / 16 ∧
    h.lfoAmp.toNat = b 11 % 16) ∧
  ∀ (i : Instr) (s t : State) (v : VoiceId), exec i s = .next t → (∀ d, i ≠ .wrSample d) → i ≠ .reset →
    (t.voice v).smp = (s.voice v).smp

/-- R261: a linear-8 sample is the signed byte at `base + spos` times 256, and it is the current sample of a linear-8
voice's tick. -/
def Obligations.Linear8Sample : Prop :=
  (∀ (m : Memory) (base : BitVec 21) (spos : BitVec 16),
    (decode8 m base spos).toInt = (m.lookup (base.toNat + spos.toNat)).toInt * 256 ∧
    -32768 ≤ (decode8 m base spos).toInt ∧ (decode8 m base spos).toInt ≤ 32512 ∧
    (decode8 m base spos).extractLsb' 0 8 = 0) ∧
  ∀ (m : Memory) (v : Voice), v.format = .linear8 → (∀ spos, v.decodeSample m spos = decode8 m v.base spos) ∧
    v.interpolated m = interpolate (decode8 m v.base v.spos).toInt v.prev.toInt v.fpart

/-- R262 and R263: the four layouts of a packed-linear-12 group; the pattern, its low four bits 0, is the signed current
sample of a packed-linear-12 voice's tick. -/
def Obligations.Packed12Samples : Prop :=
  (∀ (m : Memory) (base : BitVec 21) (spos : BitVec 16),
    let b := fun n : Nat => (m.lookup (base.toNat + spos.toNat / 4 * 6 + n)).toNat
    (spos.toNat % 4 = 0 → (decode12 m base spos).toNat = b 0 * 256 + b 1 % 16 * 16) ∧
    (spos.toNat % 4 = 1 → (decode12 m base spos).toNat = b 2 * 256 + b 1 / 16 * 16) ∧
    (spos.toNat % 4 = 2 → (decode12 m base spos).toNat = b 3 * 256 + b 4 % 16 * 16) ∧
    (spos.toNat % 4 = 3 → (decode12 m base spos).toNat = b 5 * 256 + b 4 / 16 * 16) ∧
    (decode12 m base spos).extractLsb' 0 4 = 0) ∧
  ∀ (m : Memory) (v : Voice), v.format = .packed12 → (∀ spos, v.decodeSample m spos = decode12 m v.base spos) ∧
    v.interpolated m = interpolate (decode12 m v.base v.spos).toInt v.prev.toInt v.fpart

/-- R265: the interpolated sample is the floored weighted mean of the two samples; at fraction 0 it is the previous
one, and it lies between the two. -/
def Obligations.InterpolationIsBetween : Prop :=
  (∀ (m : Memory) (v : Voice),
    v.interpolated m = interpolate (v.decodeSample m v.spos).toInt v.prev.toInt (v.offset.toNat % 4096)) ∧
  (∀ (c p : Int) (f : Nat), f < 4096 →
    interpolate c p f * 4096 ≤ c * f + p * (4096 - f) ∧ c * f + p * (4096 - f) < (interpolate c p f + 1) * 4096 ∧
    min c p ≤ interpolate c p f ∧ interpolate c p f ≤ max c p) ∧
  (∀ c p : Int, interpolate c p 0 = p) ∧
  interpolate 4672 0 2048 = 2336 ∧ interpolate 256 (-256) 1024 = -128 ∧ interpolate (-256) 0 1 = -1

/-! ### The tick -/

/-- R227, R266 and R267, with R225 for the modifier: a playing voice's offset advances by its step, scaled by the pitch
LFO when register 6 is not zero, and at or past the end it becomes exactly `loop << FRACBITS`; the step itself is
kept. -/
def Obligations.TickAdvancesTheOffset : Prop :=
  ∀ (s : State) (v : VoiceId), (s.voice v).playing = true → ∃ t, exec .tick s = .next t ∧
    let x := s.voice v
    let y := t.voice v
    let phase := x.plfo.phase + x.plfo.pstep
    let w := (tables.plfoWave (phase.extractLsb' 8 8)).toInt
    ∃ (index : BitVec 8) (eff : Nat), (index.toNat : Int) = w + 128 ∧
      (x.reg 6 = 0 → eff = x.step) ∧
      (x.reg 6 ≠ 0 → y.plfo.phase = phase ∧ eff = x.step * (tables.pscale x.plfo.depth index * 16) / 4096) ∧
      (x.smp.endPos.toNat * 4096 ≤ x.offset.toNat + eff → y.offset.toNat = x.smp.loopPos.toNat * 4096) ∧
      (x.offset.toNat + eff < x.smp.endPos.toNat * 4096 → y.offset.toNat = x.offset.toNat + eff) ∧
      y.step = x.step

/-- R268: the previous sample becomes the sample decoded at the position being left, and only when the integer position
changes. -/
def Obligations.TickCapturesTheLeftSample : Prop :=
  ∀ (s : State) (v : VoiceId), (s.voice v).playing = true → ∃ t, exec .tick s = .next t ∧
    let x := s.voice v
    let y := t.voice v
    ∃ spos : BitVec 16, spos.toNat = x.offset.toNat / 4096 ∧
      (y.offset.toNat / 4096 ≠ x.offset.toNat / 4096 → y.prev = x.decodeSample s.rom spos) ∧
      (y.offset.toNat / 4096 = x.offset.toNat / 4096 → y.prev = x.prev)

/-- R290 and the step of R291: a playing voice's level that is at its destination stays, and any other moves by the ramp
step and stops exactly at the destination, without passing it. Derived from 44_mixer.md section 1. -/
def Obligations.TickRampsTheLevel : Prop :=
  ∀ (s : State) (v : VoiceId), (s.voice v).playing = true → ∃ t, exec .tick s = .next t ∧
    let x := s.voice v
    let y := t.voice v
    let d : Int := x.destTl.toNat * 4096
    let moved : Int := x.tl.toNat + x.tlStep
    y.destTl = x.destTl ∧ y.tlStep = x.tlStep ∧
    ((x.tl.toNat : Int) = d → y.tl = x.tl) ∧
    ((x.tl.toNat : Int) ≠ d → 0 ≤ x.tlStep → (y.tl.toNat : Int) = min moved d) ∧
    ((x.tl.toNat : Int) ≠ d → x.tlStep < 0 → (y.tl.toNat : Int) = max moved d)

/-- R195: ATTACK, one tick of a playing voice. -/
def Obligations.TickInAttack : Prop :=
  ∀ (s : State) (v : VoiceId), (s.voice v).playing = true → (s.voice v).eg.state = .attack →
    ∃ t, exec .tick s = .next t ∧ (t.voice v).playing = true ∧
      let e := (s.voice v).eg
      let e' := (t.voice v).eg
      e' = { e with vol := e'.vol, state := e'.state } ∧
      (1023 * 65536 ≤ e.vol.toNat + e.ar → e'.vol.toNat = 1023 * 65536 ∧
        (1024 * 65536 ≤ e.d1r → e'.state = .decay2) ∧ (e.d1r < 1024 * 65536 → e'.state = .decay1)) ∧
      (e.vol.toNat + e.ar < 1023 * 65536 → e'.vol.toNat = e.vol.toNat + e.ar ∧ e'.state = .attack)

/-- R196 and R197: DECAY1 and DECAY2, one tick of a playing voice: the volume falls by the rate, down to 0, and DECAY1
ends when the new integer volume is at or below the threshold. -/
def Obligations.TickInDecay : Prop :=
  ∀ (s : State) (v : VoiceId), (s.voice v).playing = true →
    ∃ t, exec .tick s = .next t ∧
      let e := (s.voice v).eg
      let e' := (t.voice v).eg
      (e.state = .decay1 → (t.voice v).playing = true ∧ e' = { e with vol := e'.vol, state := e'.state } ∧
        e'.vol.toNat = e.vol.toNat - e.d1r ∧
        (e'.vol.toNat / 65536 ≤ e.thr.toNat * 64 → e'.state = .decay2) ∧
        (e.thr.toNat * 64 < e'.vol.toNat / 65536 → e'.state = .decay1)) ∧
      (e.state = .decay2 → (t.voice v).playing = true ∧ e' = { e with vol := e'.vol } ∧
        e'.vol.toNat = e.vol.toNat - e.d2r)

/-- R198: RELEASE, one tick of a playing voice: the volume falls by the rate, down to 0, and the voice stops when it is
0. The stopping tick still adds the voice's sample with gain `EXP_GAIN[0]`. -/
def Obligations.TickInRelease : Prop :=
  ∀ (s : State) (v : VoiceId), (s.voice v).playing = true → (s.voice v).eg.state = .release →
    ∃ t, exec .tick s = .next t ∧
      let e := (s.voice v).eg
      let e' := (t.voice v).eg
      e' = { e with vol := e'.vol } ∧ e'.vol.toNat = e.vol.toNat - e.rr ∧
      ((t.voice v).playing = true ↔ e.rr < e.vol.toNat) ∧
      (e.vol.toNat ≤ e.rr → gained tables (t.voice v) ((s.voice v).interpolated s.rom) =
        floorShift ((t.voice v).tremolo tables ((s.voice v).interpolated s.rom) * tables.expGain 0) 10)

/-- R223: a unit's phase advances, by its latched step modulo 2^16, exactly in a tick where its voice plays and its
register (6 for pitch, 7 for amplitude) is not zero; no latched step or depth changes in a tick. -/
def Obligations.TickAdvancesEnabledPhases : Prop :=
  ∀ (s : State) (v : VoiceId), ∃ t, exec .tick s = .next t ∧
    let x := s.voice v
    let y := t.voice v
    y.plfo.pstep = x.plfo.pstep ∧ y.plfo.depth = x.plfo.depth ∧ y.alfo.pstep = x.alfo.pstep ∧
    y.alfo.depth = x.alfo.depth ∧
    (x.playing = true → x.reg 6 ≠ 0 →
      y.plfo.phase.toNat = (x.plfo.phase.toNat + x.plfo.pstep.toNat) % 65536) ∧
    (x.playing = true → x.reg 7 ≠ 0 →
      y.alfo.phase.toNat = (x.alfo.phase.toNat + x.alfo.pstep.toNat) % 65536) ∧
    (x.playing = false ∨ x.reg 6 = 0 → y.plfo.phase = x.plfo.phase) ∧
    (x.playing = false ∨ x.reg 7 = 0 → y.alfo.phase = x.alfo.phase)

/-- R226, R228, R292, R295 and R296, and the two products of the pan table: what a playing voice adds to the two
accumulators of a tick: its interpolated sample, through the amplitude LFO, then the envelope gain, then the pan table,
each product floored by itself. The key reads the level that TL_KEY_SAMPLE names. -/
def Obligations.VoiceAddends : Prop :=
  ∀ (s : State) (v : VoiceId), (s.voice v).playing = true → ∃ t, exec .tick s = .next t ∧
    let x := s.voice v
    let y := t.voice v
    let phase := x.alfo.phase + x.alfo.pstep
    let s3 := x.interpolated s.rom
    let m := tables.ascale x.alfo.depth (tables.alfoWave (phase.extractLsb' 8 8)) * 16
    ∃ (s8 s9 : Int) (key : BitVec 11) (level : BitVec 10),
      (x.reg 7 = 0 → s8 = s3) ∧
      (x.reg 7 ≠ 0 → y.alfo.phase = phase ∧ s8 * 4096 ≤ s3 * m ∧ s3 * m < (s8 + 1) * 4096) ∧
      y.eg = x.eg.tick ∧ level.toNat = y.eg.vol.toNat / 65536 ∧
      s9 * 1024 ≤ s8 * tables.expGain level ∧ s8 * tables.expGain level < (s9 + 1) * 1024 ∧
      key.toNat = x.pan.toNat * 128 + (match tables.tlKeySample with
        | .afterRamp => y.tl
        | .beforeRamp => x.tl).toNat / 4096 ∧
      (x.tick tables s.rom).left * 4096 ≤ tables.panL key * s9 ∧
      tables.panL key * s9 < ((x.tick tables s.rom).left + 1) * 4096 ∧
      (x.tick tables s.rom).right * 4096 ≤ tables.panR key * s9 ∧
      tables.panR key * s9 < ((x.tick tables s.rom).right + 1) * 4096

/-- R300: the frame of a tick is the sum of the voices' addends in each channel, saturated to -32768 to 32767. -/
def Obligations.FrameSaturatesTheSums : Prop :=
  ∀ s : State, ∃ (t : State) (f : Frame), exec .tick s = .next t ∧ t.frames = f :: s.frames ∧
    let accL := (s.voices.toList.map fun x => (x.tick tables s.rom).left).sum
    let accR := (s.voices.toList.map fun x => (x.tick tables s.rom).right).sum
    f.left.toInt = min 32767 (max (-32768) accL) ∧ f.right.toInt = min 32767 (max (-32768) accR)

/-- R305: a voice that does not play is not changed by a tick, adds nothing to either channel and has no part in the
frame (whatever its state and whatever the ROM holds); and a voice whose release ends in a tick still adds its sample
in that tick. -/
def Obligations.SilentVoicesTakeNoPart : Prop :=
  (∀ s : State, ∃ t, exec .tick s = .next t ∧
    (∀ v, (s.voice v).playing = false → t.voice v = s.voice v) ∧
    t.frames = frameOf tables s.rom (s.voices.toList.filter fun x => x.playing) :: s.frames) ∧
  (∀ (x : Voice) (m m' : Memory), x.playing = false → x.tick tables m = x.tick tables m' ∧
    (x.tick tables m).left = 0 ∧ (x.tick tables m).right = 0) ∧
  ∀ (x : Voice) (m : Memory), x.playing = true → x.eg.state = .release → x.eg.vol.toNat ≤ x.eg.rr →
    ∃ key : BitVec 11, (x.tick tables m).voice.playing = false ∧
      key.toNat = x.pan.toNat * 128 + (match tables.tlKeySample with
        | .afterRamp => (x.tick tables m).voice.tl
        | .beforeRamp => x.tl).toNat / 4096 ∧
      (x.tick tables m).left =
        panProduct (tables.panL key) (gained tables (x.tick tables m).voice (x.interpolated m)) ∧
      (x.tick tables m).right =
        panProduct (tables.panR key) (gained tables (x.tick tables m).voice (x.interpolated m))

/-- A tick changes nothing but the fields its ten steps name: not the registers, the selects, the rate, the step, the
metadata, the base, the format, the pan, the destination, the ramp step, the envelope rates or threshold, the ROM or
the pending events. Derived from 44_mixer.md section 5. -/
def Obligations.TickFrame : Prop :=
  ∀ s : State, ∃ t, exec .tick s = .next t ∧
    t = { s with voices := t.voices, frames := t.frames } ∧
    ∀ v : VoiceId,
      let x := s.voice v
      let y := t.voice v
      y = { x with
        offset := y.offset
        prev := y.prev
        playing := y.playing
        tl := y.tl
        eg := { x.eg with state := y.eg.state, vol := y.eg.vol }
        plfo := { x.plfo with phase := y.plfo.phase }
        alfo := { x.alfo with phase := y.alfo.phase } }

/-- R311 and R84: a voice's part of a tick reads and writes only its own state (and the ROM), and the frame does not
depend on the order in which the voices are processed. -/
def Obligations.VoicesAreIndependent : Prop :=
  (∀ (s s' : State) (v : VoiceId), s.voice v = s'.voice v → s.rom = s'.rom →
    ∃ t t', exec .tick s = .next t ∧ exec .tick s' = .next t' ∧ t.voice v = t'.voice v) ∧
  ∀ (s : State) (order : List Voice), order.Perm s.voices.toList →
    ∃ t, exec .tick s = .next t ∧ t.frames = frameOf tables s.rom order :: s.frames

/-- R312: a `TICK` emits exactly one frame, `(0, 0)` when no voice plays, and no other operation emits one. -/
def Obligations.EachTickEmitsOneFrame : Prop :=
  (∀ s : State, ∃ (t : State) (f : Frame), exec .tick s = .next t ∧ t.frames = f :: s.frames ∧
    (Silent s → f = { left := 0, right := 0 })) ∧
  ∀ (i : Instr) (s t : State), exec i s = .next t → i ≠ .tick → t.frames = s.frames

/-- With pan code 8 a voice adds 0 to both channels, and with pan code 0 the same amount to both, at every level and for
every sample. Derived from 44_mixer.md section 3. -/
def Obligations.PanCodesZeroAndEight : Prop :=
  ∀ (x : Voice) (m : Memory),
    (x.pan = 8 → (x.tick tables m).left = 0 ∧ (x.tick tables m).right = 0) ∧
    (x.pan = 0 → (x.tick tables m).left = (x.tick tables m).right)

/-- R229: with depth 0 an enabled unit changes neither the step nor the sample, and still advances its phase. -/
def Obligations.DepthZeroIsFlat : Prop :=
  (∀ i : BitVec 8, tables.pscale 0 i = 256 ∧ tables.ascale 0 i = 256) ∧
  (∀ x : Voice, x.plfo.depth = 0 → x.reg 6 ≠ 0 → x.pitchAdvance.stepEff tables = x.step ∧
    pitchModifier tables x.pitchAdvance.plfo = 4096 ∧ x.pitchAdvance.plfo.phase = x.plfo.phase + x.plfo.pstep) ∧
  ∀ (x : Voice) (sample : Int), x.alfo.depth = 0 → x.reg 7 ≠ 0 → x.ampAdvance.tremolo tables sample = sample ∧
    ampModifier tables x.ampAdvance.alfo = 4096 ∧ x.ampAdvance.alfo.phase = x.alfo.phase + x.alfo.pstep

/-- R201: the volume never decreases in ATTACK and never increases in the other states, it stays in its range, and the
gain index is at most `EG_MAX`. -/
def Obligations.EnvelopeIsMonotone : Prop :=
  ∀ e : Envelope, e.vol.toNat ≤ 1023 * 65536 →
    (e.state = .attack → e.vol.toNat ≤ e.tick.vol.toNat) ∧
    (e.state ≠ .attack → e.tick.vol.toNat ≤ e.vol.toNat) ∧
    e.tick.vol.toNat ≤ 1023 * 65536 ∧ (volInt e.tick.vol).toNat = e.tick.vol.toNat / 65536 ∧
    e.tick.vol.toNat / 65536 ≤ 1023

/-! ### Rules of the whole machine -/

/-- R190: the envelope's state changes as the table of transitions says, and only so (a `RESET` apart, which sets it to
ATTACK). -/
def Obligations.EnvelopeTransitions : Prop :=
  ∀ (i : Instr) (s t : State) (v : VoiceId), exec i s = .next t → i ≠ .reset →
    let x := s.voice v
    let y := t.voice v
    (x.eg.state ≠ y.eg.state →
      (y.eg.state = .attack ∧ s.selVoice = some v ∧
        ((∃ d, i = .wrKeyon d) ∨ ((∃ d, i = .wrSample d) ∧ x.playing = true))) ∨
      (y.eg.state = .release ∧ s.selVoice = some v ∧ (∃ d, i = .wrKeyoff d) ∧ x.smp.rr.toNat ≠ 15) ∨
      (i = .tick ∧ x.playing = true ∧ x.eg.state = .attack ∧ y.eg.vol.toNat = 1023 * 65536 ∧
        ((y.eg.state = .decay1 ∧ x.eg.d1r < 1024 * 65536) ∨ (y.eg.state = .decay2 ∧ 1024 * 65536 ≤ x.eg.d1r))) ∨
      (i = .tick ∧ x.playing = true ∧ x.eg.state = .decay1 ∧ y.eg.state = .decay2 ∧
        y.eg.vol.toNat / 65536 ≤ x.eg.thr.toNat * 64)) ∧
    (s.selVoice = some v → (∃ d, i = .wrKeyon d) ∨ ((∃ d, i = .wrSample d) ∧ x.playing = true) →
      y.eg.state = .attack) ∧
    (s.selVoice = some v → (∃ d, i = .wrKeyoff d) → x.smp.rr.toNat ≠ 15 → y.eg.state = .release) ∧
    (i = .tick → x.playing = true → x.eg.state = .attack → y.eg.vol.toNat = 1023 * 65536 →
      (x.eg.d1r < 1024 * 65536 → y.eg.state = .decay1) ∧ (1024 * 65536 ≤ x.eg.d1r → y.eg.state = .decay2)) ∧
    (i = .tick → x.playing = true → x.eg.state = .decay1 →
      y.eg.vol.toNat / 65536 ≤ x.eg.thr.toNat * 64 → y.eg.state = .decay2) ∧
    (i = .tick → x.playing = true → x.eg.state = .release → y.eg.vol = 0 → y.playing = false)

/-- `playing` is set only by key-on of the voice, and cleared only by key-off with the instant-release code, by the
envelope reaching 0 in RELEASE in a tick, or by `RESET`; it is 0 at reset. Derived from 10_state.md section 2. -/
def Obligations.PlayingChangesOnlyAsStated : Prop :=
  (∀ (i : Instr) (s t : State) (v : VoiceId), exec i s = .next t →
    ((s.voice v).playing = false → (t.voice v).playing = true → s.selVoice = some v ∧ ∃ d, i = .wrKeyon d) ∧
    ((s.voice v).playing = true → (t.voice v).playing = false →
      (s.selVoice = some v ∧ (∃ d, i = .wrKeyoff d) ∧ (s.voice v).smp.rr.toNat = 15) ∨
      (i = .tick ∧ (s.voice v).eg.state = .release ∧ (t.voice v).eg.vol = 0) ∨ i = .reset)) ∧
  ∀ v, (State.reset.voice v).playing = false

/-- R72: no step changes the ROM, as a whole or at any address. -/
def Obligations.RomIsNeverWritten : Prop :=
  ∀ s t : State, step s = .next t → t.rom = s.rom ∧ ∀ a, memRead t.rom a = memRead s.rom a

/-- A bus write leaves every voice but the selected one as it was. Derived from 20_memory.md section 4 and 10_state.md
section 2. -/
def Obligations.WritesTouchOnlyTheSelectedVoice : Prop :=
  ∀ (s t : State) (w : VoiceId), Event.IsWrite s.nextEvent → s.selVoice ≠ some w → step s = .next t →
    t.voice w = s.voice w

/-- A voice's step changes only at a pitch write to that voice or at `RESET`, and the latched LFO steps only at `RESET`
or at a register 1, 6 or 7 write to that voice: never at a `CLOCK` and never in a tick. Derived from
70_reset_and_hazards.md section 3. -/
def Obligations.StepsChangeOnlyAtWrites : Prop :=
  ∀ (i : Instr) (s t : State) (v : VoiceId), exec i s = .next t → i ≠ .reset →
    ((t.voice v).step ≠ (s.voice v).step → s.selVoice = some v ∧ ∃ d, i = .wrPitchl d ∨ i = .wrPitchh d) ∧
    ((t.voice v).plfo.pstep ≠ (s.voice v).plfo.pstep ∨ (t.voice v).alfo.pstep ≠ (s.voice v).alfo.pstep →
      s.selVoice = some v ∧ ∃ d, i = .wrSample d ∨ i = .wrLfo d ∨ i = .wrAm d)

/-- R230: a key-on (and so a retrigger), a key-off and a pitch write leave every LFO field as it was, and no operation
but a tick and a reset changes a phase; a register-1 write changes LFO fields only as its header's two LFO bytes written
to registers 6 and 7 would. -/
def Obligations.LfoFieldsSurviveRetrigger : Prop :=
  (∀ (i : Instr) (s t : State) (v : VoiceId) (d : Byte), exec i s = .next t →
    i = .wrKeyon d ∨ i = .wrKeyoff d ∨ i = .wrPitchl d ∨ i = .wrPitchh d →
    (t.voice v).plfo = (s.voice v).plfo ∧ (t.voice v).alfo = (s.voice v).alfo) ∧
  (∀ (i : Instr) (s t : State) (v : VoiceId), exec i s = .next t → i ≠ .tick → i ≠ .reset →
    (t.voice v).plfo.phase = (s.voice v).plfo.phase ∧ (t.voice v).alfo.phase = (s.voice v).alfo.phase) ∧
  ∀ (s t : State) (v : VoiceId) (d : Byte), s.selVoice = some v → exec (.wrSample d) s = .next t →
    ∃ u w, exec (.wrLfo (t.voice v).smp.lfoVib) s = .next u ∧
      exec (.wrAm ((t.voice v).smp.lfoAmp.setWidth 8)) u = .next w ∧
      (t.voice v).plfo = (w.voice v).plfo ∧ (t.voice v).alfo = (w.voice v).alfo

/-! ### Invariants that every step keeps -/

/-- The ranges of 10_state.md R40, R44 and R46, a positive rate, a canonical ROM listing and well-formed pending events
are kept by every step. The ranges are derived from 10_state.md section 2, the positive rate from 10_state.md section 1
and 00_scope.md section 5. The model's own choices: the ROM as a list in canonical form (log entry 4), the pending
events as a list of State (log entry 5), and that a pending `CLOCK` is well-formed when it is positive (log entry 8). -/
def Obligations.StepKeepsRanges : Prop :=
  ∀ s t : State, s.InRange → step s = .next t → t.InRange

/-- The ramp step of every voice is one of its three values and points toward the destination whenever the level is not
there: every step keeps it. Derived from 44_mixer.md section 1. -/
def Obligations.StepKeepsRampAimed : Prop :=
  ∀ s t : State, (∀ v, (s.voice v).RampAimed) → step s = .next t → ∀ v, (t.voice v).RampAimed

/-- The pan code, the destination level, the base, the format, and the envelope's rates and threshold agree with the
registers and the metadata they were latched from: every step keeps it. Derived from 10_state.md section 2 and
41_envelope.md section 2. -/
def Obligations.StepKeepsLatchedFields : Prop :=
  ∀ s t : State, (∀ v, (s.voice v).Latched) → step s = .next t → ∀ v, (t.voice v).Latched

/-- The two LFO units of every voice share their phase step, and an enabled unit has the depth (and the pitch unit the
phase step) of its register: every step keeps it. Derived from 42_lfo.md section 1. -/
def Obligations.StepKeepsLfoLatched : Prop :=
  ∀ s t : State, (∀ v, (s.voice v).LfoLatched) → step s = .next t → ∀ v, (t.voice v).LfoLatched

/-- The previous sample of every voice is a decoded sample, its low four bits zero: every step keeps it. Derived from
43_sample_decode.md sections 2 and 4. -/
def Obligations.StepKeepsPrevDecoded : Prop :=
  ∀ s t : State, (∀ v, (s.voice v).PrevDecoded) → step s = .next t → ∀ v, (t.voice v).PrevDecoded

/-- The five invariants hold in the state after reset. The values of the voices are derived from 10_state.md section 2
and the positive rate from 10_state.md section 1. The model's own choices: the input clock behind that rate is an open
constant made positive (log entry 2), the ROM's listing is empty at reset and canonical (log entry 4), and the list of
pending events is empty at reset (log entry 5), so that its events are well-formed (log entry 8). -/
def Obligations.ResetMeetsTheInvariants : Prop :=
  State.reset.InRange ∧ ∀ v, (State.reset.voice v).RampAimed ∧ (State.reset.voice v).Latched ∧
    (State.reset.voice v).LfoLatched ∧ (State.reset.voice v).PrevDecoded
end

