-- ==== Sys2Proof/Laws/Decode.lean ====
section
/-! SUPPORT. The decode key and its fields: a key is exactly its four fields (30_encoding.md R104). -/

namespace Sys2Proof

variable (valid : Bool) (sel : BitVec 3) (port : Port) (data : Byte)

/-- The key's bit 13. -/
@[simp] theorem voiceValid_decodeKeyOf : (decodeKeyOf valid sel port data).voiceValid = valid := by
  simp only [decodeKeyOf, DecodeKey.voiceValid, busWord, BitVec.getLsbD_append, BitVec.getLsbD_ofBool]
  simp

/-- The key's bits 12:10. -/
@[simp] theorem selReg_decodeKeyOf : (decodeKeyOf valid sel port data).selReg = sel := by
  apply BitVec.eq_of_getLsbD_eq
  intro i hi
  simp only [decodeKeyOf, DecodeKey.selReg, busWord, BitVec.getLsbD_append, BitVec.getLsbD_extractLsb']
  simp [show ¬ 10 + i < 10 by omega, hi]

/-- The key's bits 9:8. -/
@[simp] theorem port_decodeKeyOf : (decodeKeyOf valid sel port data).port = port := by
  apply BitVec.eq_of_getLsbD_eq
  intro i hi
  simp only [decodeKeyOf, DecodeKey.port, busWord, BitVec.getLsbD_append, BitVec.getLsbD_extractLsb']
  simp [show 8 + i < 10 by omega, hi]

/-- The key's bits 7:0. -/
@[simp] theorem data_decodeKeyOf : (decodeKeyOf valid sel port data).data = data := by
  apply BitVec.eq_of_getLsbD_eq
  intro i hi
  simp only [decodeKeyOf, DecodeKey.data, busWord, BitVec.getLsbD_append, BitVec.getLsbD_extractLsb']
  simp [hi, show i < 10 by omega]

/-- A key put together from its own fields. -/
theorem decodeKeyOf_fields (k : DecodeKey) : decodeKeyOf k.voiceValid k.selReg k.port k.data = k := by
  apply BitVec.eq_of_getLsbD_eq
  intro i hi
  simp only [decodeKeyOf, busWord, DecodeKey.voiceValid, DecodeKey.selReg, DecodeKey.port, DecodeKey.data,
    BitVec.getLsbD_append, BitVec.getLsbD_extractLsb', BitVec.getLsbD_ofBool]
  rcases Nat.lt_or_ge i 10 with h | h
  · rcases Nat.lt_or_ge i 8 with h8 | h8
    · simp [h, h8]
    · simp [h, show ¬ i < 8 by omega, show 8 + (i - 8) = i by omega, show i - 8 < 2 by omega]
  · rcases Nat.lt_or_ge i 13 with h13 | h13
    · simp [show ¬ i < 10 by omega, show i - 10 < 3 by omega, show 10 + (i - 10) = i by omega]
    · have : i = 13 := by omega
      subst this
      simp

/-- Decoding a bus write, in terms of its own parts. -/
theorem decode_write : decode valid sel (.write port data) = .ok (
    match port.toNat with
    | 1 => .selv data
    | 2 => .selr data
    | 3 => .rsvdP3 data
    | _ => if valid then decodeRegisterWrite sel data else .wrNovoice data) := by
  show Except.ok (decodeKey (decodeKeyOf valid sel port data)) = _
  have h := decodeKey.eq_def (decodeKeyOf valid sel port data)
  rw [port_decodeKeyOf, voiceValid_decodeKeyOf, selReg_decodeKeyOf, data_decodeKeyOf] at h
  exact congrArg Except.ok h

end Sys2Proof
end

