-- ==== Sys2Proof/Laws/State.lean ====
section
/-! SUPPORT. One lemma for each field of State after each update of it, each true by unfolding. -/

namespace Sys2Proof.Machine

variable (s : State) (v : VoiceId) (f : Voice → Voice)

/-! ### popEvent -/

@[simp] theorem State.popEvent_selVoice : s.popEvent.selVoice = s.selVoice := rfl
@[simp] theorem State.popEvent_selReg : s.popEvent.selReg = s.selReg := rfl
@[simp] theorem State.popEvent_rate : s.popEvent.rate = s.rate := rfl
@[simp] theorem State.popEvent_voices : s.popEvent.voices = s.voices := rfl
@[simp] theorem State.popEvent_rom : s.popEvent.rom = s.rom := rfl
@[simp] theorem State.popEvent_pending : s.popEvent.pending = s.pending.tail := rfl
@[simp] theorem State.popEvent_frames : s.popEvent.frames = s.frames := rfl
@[simp] theorem State.popEvent_voice (w : VoiceId) : s.popEvent.voice w = s.voice w := rfl

/-! ### updateVoice -/

@[simp] theorem State.updateVoice_selVoice : (s.updateVoice v f).selVoice = s.selVoice := rfl
@[simp] theorem State.updateVoice_selReg : (s.updateVoice v f).selReg = s.selReg := rfl
@[simp] theorem State.updateVoice_rate : (s.updateVoice v f).rate = s.rate := rfl
@[simp] theorem State.updateVoice_rom : (s.updateVoice v f).rom = s.rom := rfl
@[simp] theorem State.updateVoice_pending : (s.updateVoice v f).pending = s.pending := rfl
@[simp] theorem State.updateVoice_frames : (s.updateVoice v f).frames = s.frames := rfl

/-- The updated voice. -/
@[simp] theorem State.updateVoice_voice_same : (s.updateVoice v f).voice v = f (s.voice v) := by
  simp [State.updateVoice, State.voice]

/-- Every other voice. -/
theorem State.updateVoice_voice_other {w : VoiceId} (h : w ≠ v) : (s.updateVoice v f).voice w = s.voice w := by
  have hne : v.val ≠ w.val := fun e => h (Fin.ext e.symm)
  simp [State.updateVoice, State.voice, hne]

/-- A voice after an update of one voice. -/
theorem State.updateVoice_voice (w : VoiceId) :
    (s.updateVoice v f).voice w = if w = v then f (s.voice v) else s.voice w := by
  by_cases h : w = v
  · subst h; simp
  · rw [if_neg h, s.updateVoice_voice_other v f h]

/-! ### onSelected -/

/-- With no voice selected nothing happens. -/
theorem State.onSelected_none (h : s.selVoice = none) : s.onSelected f = s := by simp [State.onSelected, h]

/-- With a voice selected that voice is updated. -/
theorem State.onSelected_some (h : s.selVoice = some v) : s.onSelected f = s.updateVoice v f := by
  simp [State.onSelected, h]

@[simp] theorem State.onSelected_selVoice : (s.onSelected f).selVoice = s.selVoice := by
  unfold State.onSelected; split <;> rfl
@[simp] theorem State.onSelected_selReg : (s.onSelected f).selReg = s.selReg := by
  unfold State.onSelected; split <;> rfl
@[simp] theorem State.onSelected_rate : (s.onSelected f).rate = s.rate := by unfold State.onSelected; split <;> rfl
@[simp] theorem State.onSelected_rom : (s.onSelected f).rom = s.rom := by unfold State.onSelected; split <;> rfl
@[simp] theorem State.onSelected_pending : (s.onSelected f).pending = s.pending := by
  unfold State.onSelected; split <;> rfl
@[simp] theorem State.onSelected_frames : (s.onSelected f).frames = s.frames := by
  unfold State.onSelected; split <;> rfl

/-- A voice after a port-0 write: changed only where it is the selected one. -/
theorem State.onSelected_voice (w : VoiceId) :
    (s.onSelected f).voice w = if s.selVoice = some w then f (s.voice w) else s.voice w := by
  unfold State.onSelected
  split
  · next h => simp [h]
  · next u h =>
    rw [State.updateVoice_voice]
    by_cases e : w = u
    · subst e; simp [h]
    · have : u ≠ w := fun x => e x.symm
      simp [h, e, this]

/-- What holds of every voice before a port-0 write, and is kept by its operation, holds of every voice after. -/
theorem State.onSelected_forall {P : Voice → Prop} (hP : ∀ w, P (s.voice w)) (hf : ∀ w, P w → P (f w)) (w : VoiceId) :
    P ((s.onSelected f).voice w) := by
  rw [State.onSelected_voice]
  split
  · exact hf _ (hP w)
  · exact hP w

/-! ### The tick -/

variable (T : Config.Tables)

@[simp] theorem State.tick_selVoice : (s.tick T).selVoice = s.selVoice := by simp [State.tick]
@[simp] theorem State.tick_selReg : (s.tick T).selReg = s.selReg := by simp [State.tick]
@[simp] theorem State.tick_rate : (s.tick T).rate = s.rate := by simp [State.tick]
@[simp] theorem State.tick_rom : (s.tick T).rom = s.rom := by simp [State.tick]
@[simp] theorem State.tick_pending : (s.tick T).pending = s.pending := by simp [State.tick]
@[simp] theorem State.tick_frames : (s.tick T).frames = frameOf T s.rom s.voices.toList :: s.frames := by
  simp [State.tick]

/-- A voice after a tick: its own part of the tick. -/
@[simp] theorem State.tick_voice (w : VoiceId) : (s.tick T).voice w = ((s.voice w).tick T s.rom).voice := by
  simp [State.tick, State.voice]

/-! ### Voices in the list of all voices -/

/-- The list of the voices holds exactly the voices by number. -/
theorem State.mem_voices_iff (x : Voice) : x ∈ s.voices.toList ↔ ∃ w, s.voice w = x := by
  constructor
  · intro h
    obtain ⟨i, hi, e⟩ := List.getElem_of_mem h
    have hi' : i < voiceCount := by simpa using hi
    exact ⟨⟨i, hi'⟩, by simpa [State.voice] using e⟩
  · rintro ⟨w, rfl⟩
    simp [State.voice]

/-- Reading a voice register after a store to one. -/
theorem Voice.reg_storeReg (x : Voice) (r q : Fin 8) (d : Byte) :
    (x.storeReg r d).reg q = if q = r then d else x.reg q := by
  by_cases h : q = r
  · subst h; simp [Voice.reg, Voice.storeReg]
  · have : r.val ≠ q.val := fun e => h (Fin.ext e.symm)
    simp [Voice.reg, Voice.storeReg, h, this]

/-- The register just stored. -/
@[simp] theorem Voice.reg_storeReg_same (x : Voice) (r : Fin 8) (d : Byte) : (x.storeReg r d).reg r = d := by
  simp [Voice.reg_storeReg]

/-! ### storeReg -/

@[simp] theorem Voice.storeReg_pan (x : Voice) (r : Fin 8) (d : Byte) : (x.storeReg r d).pan = x.pan := rfl
@[simp] theorem Voice.storeReg_smp (x : Voice) (r : Fin 8) (d : Byte) : (x.storeReg r d).smp = x.smp := rfl
@[simp] theorem Voice.storeReg_base (x : Voice) (r : Fin 8) (d : Byte) : (x.storeReg r d).base = x.base := rfl
@[simp] theorem Voice.storeReg_format (x : Voice) (r : Fin 8) (d : Byte) : (x.storeReg r d).format = x.format := rfl
@[simp] theorem Voice.storeReg_offset (x : Voice) (r : Fin 8) (d : Byte) : (x.storeReg r d).offset = x.offset := rfl
@[simp] theorem Voice.storeReg_step (x : Voice) (r : Fin 8) (d : Byte) : (x.storeReg r d).step = x.step := rfl
@[simp] theorem Voice.storeReg_prev (x : Voice) (r : Fin 8) (d : Byte) : (x.storeReg r d).prev = x.prev := rfl
@[simp] theorem Voice.storeReg_playing (x : Voice) (r : Fin 8) (d : Byte) : (x.storeReg r d).playing = x.playing := rfl
@[simp] theorem Voice.storeReg_tl (x : Voice) (r : Fin 8) (d : Byte) : (x.storeReg r d).tl = x.tl := rfl
@[simp] theorem Voice.storeReg_destTl (x : Voice) (r : Fin 8) (d : Byte) : (x.storeReg r d).destTl = x.destTl := rfl
@[simp] theorem Voice.storeReg_tlStep (x : Voice) (r : Fin 8) (d : Byte) : (x.storeReg r d).tlStep = x.tlStep := rfl
@[simp] theorem Voice.storeReg_eg (x : Voice) (r : Fin 8) (d : Byte) : (x.storeReg r d).eg = x.eg := rfl
@[simp] theorem Voice.storeReg_plfo (x : Voice) (r : Fin 8) (d : Byte) : (x.storeReg r d).plfo = x.plfo := rfl
@[simp] theorem Voice.storeReg_alfo (x : Voice) (r : Fin 8) (d : Byte) : (x.storeReg r d).alfo = x.alfo := rfl

/-! ### The playing flag -/

@[simp] theorem Voice.setPlaying_playing (x : Voice) : x.setPlaying.playing = true := rfl
@[simp] theorem Voice.clearPlaying_playing (x : Voice) : x.clearPlaying.playing = false := rfl
@[simp] theorem Voice.setPlaying_eg (x : Voice) : x.setPlaying.eg = x.eg := rfl
@[simp] theorem Voice.clearPlaying_eg (x : Voice) : x.clearPlaying.eg = x.eg := rfl

end Sys2Proof.Machine
end

