-- ==== Sys2Proof/Laws/Voice.lean ====
section
/-! SUPPORT. What each shared operation on a voice can do, said once: the voice after it, as one record update. -/

namespace Sys2Proof.Machine

variable (T : Config.Tables) (m : Memory) (R : Rat) (v : Voice)

/-! ### Envelope, LFO and retrigger -/

/-- The four rates and the threshold that `EG_RECALC` gives; nothing else changes. -/
theorem Voice.egRecalc_eq : v.egRecalc T = { v with eg := { v.eg with
    ar := getRate T.attackStep (keyRate v.smp.krs (v.reg 3)) v.smp.ar
    d1r := getRate T.decayStep (keyRate v.smp.krs (v.reg 3)) v.smp.d1r
    d2r := getRate T.decayStep (keyRate v.smp.krs (v.reg 3)) v.smp.d2r
    rr := getRate T.decayStep (keyRate v.smp.krs (v.reg 3)) v.smp.rr
    thr := thresholdCode v.smp.dl } } := rfl

/-- `EG_RECALC` depends only on the metadata and register 3, so recomputing again changes nothing. -/
theorem Voice.egRecalc_idem : (v.egRecalc T).egRecalc T = v.egRecalc T := rfl

/-- The voice after a retrigger. -/
theorem Voice.retrigger_eq : v.retrigger T = { v with
    offset := 0
    prev := 0
    tl := storeTl (destValue v.destTl)
    eg := { (v.egRecalc T).eg with state := .attack, vol := 0 } } := rfl

/-- The voice after `LFO_RECOMPUTE`. -/
theorem Voice.lfoRecompute_eq : v.lfoRecompute T = { v with
    plfo := { v.plfo with pstep := phaseStep T (lfoFrequency (v.reg 6)), depth := pitchDepth (v.reg 6) }
    alfo := { v.alfo with pstep := phaseStep T (lfoFrequency (v.reg 6)), depth := ampDepth (v.reg 7) } } := rfl

/-- The voice after a write to register 6 or 7: the byte stored, and both units recomputed when it is not zero. -/
theorem Voice.writeLfoReg_eq (r : Fin 8) (d : Byte) : v.writeLfoReg T r d = { v with
    regs := v.regs.set r d
    plfo := if d = 0 then v.plfo else ((v.storeReg r d).lfoRecompute T).plfo
    alfo := if d = 0 then v.alfo else ((v.storeReg r d).lfoRecompute T).alfo } := by
  unfold Voice.writeLfoReg
  by_cases h : d = 0
  · simp only [ne_eq, h, not_true_eq_false, if_false]; rfl
  · simp only [ne_eq, h, not_false_eq_true, if_true]; rfl

/-- The voice after `PITCH_UPDATE`: the new step, and the rates recomputed. -/
theorem Voice.pitchUpdate_eq : v.pitchUpdate T R = { v.egRecalc T with
    step := pitchStep (T.freqStep R (pitchFraction (v.reg 2) (v.reg 3))) (octave (v.reg 3)) R } := rfl

/-! ### The pieces of a tick -/

/-- The envelope's tick changes the envelope, and clears `playing` when a release has come to 0. -/
theorem Voice.egTick_eq : v.egTick = { v with
    eg := v.eg.tick
    playing := if v.eg.state = .release ∧ v.eg.tick.vol = 0 then false else v.playing } := by
  unfold Voice.egTick
  simp only
  split <;> rfl

/-- The offset after step 5 of a tick. -/
def Voice.tickedOffset (T : Config.Tables) (v : Voice) : BitVec (16 + Config.fracBits) :=
  advanceOffset v.smp v.offset (v.pitchAdvance.stepEff T)

/-- A playing voice after a tick, as one update of the voice before it. -/
theorem Voice.tickState_eq : v.tickState T m = { v with
    plfo := if v.pitchEnabled then v.plfo.advance else v.plfo
    offset := v.tickedOffset T
    prev := if (v.tickedOffset T).extractLsb' Config.fracBits 16 ≠ v.spos then v.decodeSample m v.spos else v.prev
    tl := rampTl v.tl v.destTl v.tlStep
    alfo := if v.ampEnabled then v.alfo.advance else v.alfo
    eg := v.eg.tick
    playing := if v.eg.state = .release ∧ v.eg.tick.vol = 0 then false else v.playing } := by
  simp only [Voice.tickState, Voice.egTick_eq, Voice.ampAdvance, Voice.tlRamp, Voice.capturePrev, Voice.advance,
    Voice.pitchAdvance, Voice.tickedOffset, Voice.stepEff, Voice.ampEnabled, Voice.pitchEnabled, Voice.reg, Voice.spos]
  rfl

/-- A voice's part of a tick when it plays. -/
theorem Voice.tick_playing (h : v.playing = true) : v.tick T m = v.tickPlaying T m := by simp [Voice.tick, h]

/-- A voice's part of a tick when it does not play. -/
theorem Voice.tick_not_playing (h : v.playing = false) :
    v.tick T m = { voice := v, left := 0, right := 0 } := by simp [Voice.tick, h]

/-- The state part of a playing voice's tick. -/
theorem Voice.tick_voice (h : v.playing = true) : (v.tick T m).voice = v.tickState T m := by
  rw [Voice.tick_playing _ _ _ h]; rfl

/-! ### Register writes -/

/-- The voice after a register-0 write. -/
theorem Voice.writePan_eq (d : Byte) : v.writePan d = { v with regs := v.regs.set 0 d, pan := panCode d } := rfl

/-- The voice after a key-on. -/
theorem Voice.writeKeyon_eq (d : Byte) : v.writeKeyon T d = { v with
    regs := v.regs.set 4 d
    playing := true
    offset := 0
    prev := 0
    tl := storeTl (destValue v.destTl)
    eg := { ((v.storeReg 4 d).egRecalc T).eg with state := .attack, vol := 0 } } := rfl

/-- The voice after a key-off. -/
theorem Voice.writeKeyoff_eq (d : Byte) : v.writeKeyoff d = { v with
    regs := v.regs.set 4 d
    playing := if v.smp.rr = instantRelease then false else v.playing
    eg := if v.smp.rr = instantRelease then v.eg else { v.eg with state := .release } } := by
  unfold Voice.writeKeyoff
  by_cases h : v.smp.rr = instantRelease <;> simp [h, Voice.storeReg, Voice.clearPlaying]

/-- The voice after a register-5 write that sets the level. -/
theorem Voice.writeTlset_eq (d : Byte) : v.writeTlset d = { v with
    regs := v.regs.set 5 d, destTl := destLevel d, tl := storeTl (destValue (destLevel d)) } := rfl

/-- The voice after a register-5 write that starts a ramp. -/
theorem Voice.writeTlramp_eq (d : Byte) : v.writeTlramp T d = { v with
    regs := v.regs.set 5 d
    destTl := destLevel d
    tlStep := if v.tl.toNat > destValue (destLevel d) then T.tlStepLower else T.tlStepRaise } := rfl

/-- The voice after a register-2 or register-3 write. -/
theorem Voice.writePitch_eq (r : Fin 8) (d : Byte) :
    v.writePitch T R r d = (v.storeReg r d).pitchUpdate T R := rfl

/-- The voice after the metadata, the registers and the latches of a register-1 write, before any retrigger. -/
def Voice.sampleLoaded (T : Config.Tables) (m : Memory) (d : Byte) (v : Voice) : Voice :=
  let smp := headerDecode m (sampleIndex d (v.reg 2))
  let cascaded := ({ v.storeReg 1 d with smp := smp }.writeLfoReg T 6 smp.lfoVib).writeLfoReg T 7
    (smp.lfoAmp.setWidth 8)
  { cascaded with base := smp.start, format := smp.format }.egRecalc T

/-- A register-1 write does not change whether the voice plays before it may retrigger. -/
theorem Voice.sampleLoaded_playing (d : Byte) : (v.sampleLoaded T m d).playing = v.playing := by
  simp [Voice.sampleLoaded, Voice.egRecalc_eq, Voice.writeLfoReg_eq]

/-- The voice after a register-1 write. -/
theorem Voice.writeSample_eq (d : Byte) : v.writeSample T m d =
    if v.playing then (v.sampleLoaded T m d).retrigger T else v.sampleLoaded T m d := by
  have hp := v.sampleLoaded_playing T m d
  have h2 : (v.storeReg 1 d).reg 2 = v.reg 2 := by simp [Voice.reg_storeReg]
  have : v.writeSample T m d = if (v.sampleLoaded T m d).playing then (v.sampleLoaded T m d).retrigger T
      else v.sampleLoaded T m d := by
    unfold Voice.writeSample Voice.sampleLoaded
    simp only [Voice.reg_storeReg_same, h2]
  rw [this, hp]

end Sys2Proof.Machine
end

