-- ==== Sys2Proof/Laws/Exec.lean ====
section
/-! SUPPORT. What an operation can do to a voice and to the rest of the state, said once. -/

namespace Sys2Proof.Machine

/-- The register operations: the operation `i` on the selected voice turns voice `x` into `y`, in a machine with ROM `m`
and rate `R`. -/
def RegisterOp (m : Memory) (R : Rat) (i : Instr) (x y : Voice) : Prop :=
  (∃ d, i = .wrPan d ∧ y = x.writePan d) ∨ (∃ d, i = .wrSample d ∧ y = x.writeSample tables m d) ∨
  (∃ d, i = .wrPitchl d ∧ y = x.writePitch tables R 2 d) ∨ (∃ d, i = .wrPitchh d ∧ y = x.writePitch tables R 3 d) ∨
  (∃ d, i = .wrKeyoff d ∧ y = x.writeKeyoff d) ∨ (∃ d, i = .wrKeyon d ∧ y = x.writeKeyon tables d) ∨
  (∃ d, i = .wrTlramp d ∧ y = x.writeTlramp tables d) ∨ (∃ d, i = .wrTlset d ∧ y = x.writeTlset d) ∨
  (∃ d, i = .wrLfo d ∧ y = x.writeLfoReg tables 6 d) ∨ (∃ d, i = .wrAm d ∧ y = x.writeLfoReg tables 7 d)

/-- What an operation can do to a voice: nothing; a register operation on the selected voice; the voice's part of a
tick; the reset values. -/
theorem exec_voice {i : Instr} {s t : State} (h : exec i s = .next t) (v : VoiceId) :
    t.voice v = s.voice v ∨
    (s.selVoice = some v ∧ RegisterOp s.rom s.rate i (s.voice v) (t.voice v)) ∨
    (i = .tick ∧ t.voice v = ((s.voice v).tick tables s.rom).voice) ∨
    (i = .reset ∧ t.voice v = Voice.reset tables) := by
  cases i with
  | wrNovoice d => cases h; exact .inl rfl
  | selv d => cases h; exact .inl rfl
  | selr d => cases h; exact .inl rfl
  | rsvdP3 d => cases h; exact .inl rfl
  | clock f => cases h; exact .inl rfl
  | tick => cases h; exact .inr (.inr (.inl ⟨rfl, State.tick_voice ..⟩))
  | reset =>
    cases h
    exact .inr (.inr (.inr ⟨rfl, by simp [State.voice]⟩))
  | _ d =>
    cases h
    rw [State.onSelected_voice]
    by_cases hv : s.selVoice = some v
    · exact .inr (.inl ⟨hv, by simp [hv, RegisterOp]⟩)
    · exact .inl (if_neg hv)

/-- What an operation can do outside the voices: the ROM and the pending events stay; the rate changes at a `CLOCK`
alone, the selects at `SELV`, `SELR` and `RESET`, the frames at a `TICK` alone. -/
theorem exec_outside {i : Instr} {s t : State} (h : exec i s = .next t) :
    t.rom = s.rom ∧ t.pending = s.pending ∧
    (t.rate = s.rate ∨ ∃ f, i = .clock f ∧ t.rate = f / clocksPerFrame) ∧
    (t.selVoice = s.selVoice ∨ (∃ d, i = .selv d ∧ t.selVoice = voiceTable (voiceCode d)) ∨
      (i = .reset ∧ t.selVoice = some 0)) ∧
    (t.selReg = s.selReg ∨ (∃ d, i = .selr d ∧ t.selReg = registerSelect d) ∨ (i = .reset ∧ t.selReg = 0)) ∧
    (t.frames = s.frames ∨ (i = .tick ∧ t.frames = frameOf tables s.rom s.voices.toList :: s.frames)) := by
  cases i <;> cases h <;> simp

/-- What a step can do: it applies the decoded operation to the state without the event. -/
theorem step_next {s t : State} (h : step s = .next t) :
    ∃ i, decode s.voiceValid s.selReg s.nextEvent = .ok i ∧ exec i s.popEvent = .next t := by
  unfold step at h
  split at h
  · exact ⟨_, ‹_›, h⟩
  · cases h

/-- An invariant of single voices is kept by every step when every register operation, every tick of a playing voice and
the reset values keep it. -/
theorem step_keeps_voices {P : Voice → Prop}
    (hop : ∀ m R i x y, P x → RegisterOp m R i x y → P y)
    (htick : ∀ m x, P x → x.playing = true → P (x.tickState tables m)) (hreset : P (Voice.reset tables))
    {s t : State} (hs : ∀ v, P (s.voice v)) (h : step s = .next t) (v : VoiceId) : P (t.voice v) := by
  obtain ⟨i, -, he⟩ := step_next h
  rcases exec_voice he v with h1 | ⟨-, h1⟩ | ⟨-, h1⟩ | ⟨-, h1⟩
  · rw [h1]; exact hs v
  · exact hop _ _ _ _ _ (hs v) h1
  · rw [h1]
    simp only [State.popEvent_voice, State.popEvent_rom]
    cases hp : (s.voice v).playing with
    | true => rw [Voice.tick_voice _ _ _ hp]; exact htick _ _ (hs v) hp
    | false => rw [Voice.tick_not_playing _ _ _ hp]; exact hs v
  · rw [h1]; exact hreset

end Sys2Proof.Machine
end

