-- ==== Sys2Proof/Laws/Memory.lean ====
section
/-! SUPPORT. The laws of the ROM's listing: a place then a read, and the canonical form kept by every operation. -/

namespace Sys2Proof.Machine

/-- What the canonical form from `lo` on says of a non-empty listing. -/
theorem Memory.wfFrom_cons (a : Nat) (x : Byte) (m : Memory) (lo : Nat) :
    Memory.wfFrom ((a, x) :: m) lo = true ↔
      lo ≤ a ∧ a < 2 ^ Config.romAddrBits ∧ x ≠ romFill ∧ m.wfFrom (a + 1) = true := by
  simp [Memory.wfFrom, and_assoc]

/-- A listing in canonical form from `lo` on is so from any lower address. -/
theorem Memory.wfFrom_mono {m : Memory} {lo lo' : Nat} (h : m.wfFrom lo = true) (hle : lo' ≤ lo) :
    m.wfFrom lo' = true := by
  cases m with
  | nil => rfl
  | cons c m =>
    obtain ⟨a, x⟩ := c
    rw [Memory.wfFrom_cons] at h ⊢
    exact ⟨hle.trans h.1, h.2⟩

/-- Below the first listed address every address reads as an unlisted one. -/
theorem Memory.lookup_below {m : Memory} {lo a : Nat} (h : m.wfFrom lo = true) (ha : a < lo) : m.lookup a = romFill := by
  induction m generalizing lo with
  | nil => rfl
  | cons c m ih =>
    obtain ⟨b, x⟩ := c
    rw [Memory.wfFrom_cons] at h
    have hne : a ≠ b := by omega
    simp only [Memory.lookup, if_neg hne]
    exact ih h.2.2.2 (by omega)

/-- Placing a byte keeps the canonical form. -/
theorem Memory.place_wfFrom {m : Memory} {lo a : Nat} (x : Byte) (h : m.wfFrom lo = true) (hlo : lo ≤ a)
    (ha : a < 2 ^ Config.romAddrBits) : (m.place a x).wfFrom lo = true := by
  induction m generalizing lo with
  | nil =>
    unfold Memory.place
    split
    · rfl
    · next hx => exact (Memory.wfFrom_cons ..).2 ⟨hlo, ha, hx, rfl⟩
  | cons c m ih =>
    obtain ⟨b, y⟩ := c
    have hc := (Memory.wfFrom_cons ..).1 h
    unfold Memory.place
    split
    · next hab =>
      split
      · exact h
      · next hx =>
        exact (Memory.wfFrom_cons ..).2 ⟨hlo, ha, hx, (Memory.wfFrom_cons ..).2 ⟨hab, hc.2⟩⟩
    · split
      · next _ hab =>
        split
        · exact Memory.wfFrom_mono hc.2.2.2 (by omega)
        · next hx => exact (Memory.wfFrom_cons ..).2 ⟨hlo, ha, hx, hab ▸ hc.2.2.2⟩
      · exact (Memory.wfFrom_cons ..).2 ⟨hc.1, hc.2.1, hc.2.2.1, ih hc.2.2.2 (by omega)⟩

/-- Placing a byte keeps the canonical form of a whole ROM. -/
theorem Memory.place_wf {m : Memory} {a : Nat} (x : Byte) (h : m.wf = true) (ha : a < 2 ^ Config.romAddrBits) :
    (m.place a x).wf = true := Memory.place_wfFrom x h (Nat.zero_le a) ha

/-- Placing bytes one after the other keeps the canonical form. -/
theorem Memory.placeAll_wf {m : Memory} {a : Nat} (xs : List Byte) (h : m.wf = true)
    (ha : a + xs.length ≤ 2 ^ Config.romAddrBits) : (m.placeAll a xs).wf = true := by
  induction xs generalizing m a with
  | nil => exact h
  | cons x xs ih =>
    rw [List.length_cons] at ha
    exact ih (Memory.place_wf x h (by omega)) (by omega)

/-- A read after a place: the byte placed, and every other address as before. -/
theorem Memory.lookup_place {m : Memory} {lo : Nat} (a : Nat) (x : Byte) (h : m.wfFrom lo = true) (b : Nat) :
    (m.place a x).lookup b = if b = a then x else m.lookup b := by
  induction m generalizing lo with
  | nil =>
    unfold Memory.place
    split
    · next hx => split <;> simp_all [Memory.lookup]
    · simp [Memory.lookup]
  | cons c m ih =>
    obtain ⟨a', y⟩ := c
    have hc := (Memory.wfFrom_cons ..).1 h
    unfold Memory.place
    split
    · next hab =>
      split
      · next hx =>
        split
        · next hb =>
          subst hb
          rw [Memory.lookup_below ((Memory.wfFrom_cons ..).2 ⟨hab, hc.2⟩ : Memory.wfFrom _ (b + 1) = true) (by omega), hx]
        · rfl
      · simp [Memory.lookup]
    · split
      · next _ hab =>
        subst hab
        split
        · next hx =>
          split
          · next hb => rw [hb, Memory.lookup_below hc.2.2.2 (by omega), hx]
          · next hb => simp [Memory.lookup, hb]
        · by_cases hb : b = a <;> simp [Memory.lookup, hb]
      · next hne =>
        by_cases hb : b = a'
        · have : b ≠ a := by omega
          simp [Memory.lookup, hb, show a' ≠ a by omega]
        · simp only [Memory.lookup, if_neg hb]
          exact ih hc.2.2.2

/-- Two canonical listings that read the same at every address are the same listing. -/
theorem Memory.ext_of_lookup {m m' : Memory} {lo : Nat} (h : m.wfFrom lo = true) (h' : m'.wfFrom lo = true)
    (heq : ∀ a, m.lookup a = m'.lookup a) : m = m' := by
  induction m generalizing m' lo with
  | nil =>
    cases m' with
    | nil => rfl
    | cons c' m' =>
      obtain ⟨b, y⟩ := c'
      have hc' := (Memory.wfFrom_cons ..).1 h'
      have := heq b
      simp [Memory.lookup] at this
      exact absurd this.symm hc'.2.2.1
  | cons c m ih =>
    obtain ⟨a, x⟩ := c
    have hc := (Memory.wfFrom_cons ..).1 h
    cases m' with
    | nil =>
      have := heq a
      simp [Memory.lookup] at this
      exact absurd this hc.2.2.1
    | cons c' m' =>
      obtain ⟨b, y⟩ := c'
      have hc' := (Memory.wfFrom_cons ..).1 h'
      have hab : a = b := by
        by_contra hne
        rcases Nat.lt_or_gt_of_ne hne with hlt | hlt
        · have e := heq a
          rw [Memory.lookup_below ((Memory.wfFrom_cons ..).2 ⟨hlt, hc'.2⟩ : Memory.wfFrom _ (a + 1) = true)
            (by omega)] at e
          simp [Memory.lookup] at e
          exact hc.2.2.1 e
        · have e := heq b
          rw [Memory.lookup_below ((Memory.wfFrom_cons ..).2 ⟨hlt, hc.2⟩ : Memory.wfFrom _ (b + 1) = true)
            (by omega)] at e
          simp [Memory.lookup] at e
          exact hc'.2.2.1 e.symm
      subst hab
      have hxy : x = y := by simpa [Memory.lookup] using heq a
      subst hxy
      refine congrArg _ (ih hc.2.2.2 hc'.2.2.2 fun k => ?_)
      by_cases hk : k = a
      · rw [hk, Memory.lookup_below hc.2.2.2 (by omega), Memory.lookup_below hc'.2.2.2 (by omega)]
      · simpa [Memory.lookup, hk] using heq k

/-- The ROM at reset has the canonical form. -/
theorem State.reset_rom_wf : State.reset.rom.wf = true := rfl

end Sys2Proof.Machine
end

