-- ==== Sys2Proof/Laws/PerInstr.lean ====
section
/-! SUPPORT. A statement for every operation, proved operation by operation: its key is selected by its own row of
spec/opcode_table.json (30_encoding.md R104, R105). -/

namespace Sys2Proof.Laws

/-- The operation's key, with any value in the bits its row leaves open, is selected by the row of its mnemonic. The
three events have no key. -/
def KeySelectsRow.Statement (i : Instr) : Prop :=
  i.wellFormed = true → ∀ (voiceValid : Bool) (selReg : BitVec 3) (k : DecodeKey),
    encodeKey voiceValid selReg i = some k → ∃ r ∈ opcodeRows, r.mnemonic = i.mnemonic ∧ r.selects k = true

/-- The row of `wrNovoice`. -/
theorem KeySelectsRow.wrNovoice (data : Byte) : KeySelectsRow.Statement (.wrNovoice data) := by
  have h : ∀ (sel : BitVec 3) (d : Byte), OpcodeRow.selects opcodeRows[0] (decodeKeyOf false sel 0 d) = true := by
    decide +kernel
  rintro - - sel k ⟨⟩
  exact ⟨_, List.getElem_mem (n := 0) (by decide), rfl, h sel data⟩

/-- The row of `wrPan`. -/
theorem KeySelectsRow.wrPan (data : Byte) : KeySelectsRow.Statement (.wrPan data) := by
  have h : ∀ d : Byte, OpcodeRow.selects opcodeRows[1] (decodeKeyOf true 0 0 d) = true := by decide +kernel
  rintro - - - k ⟨⟩
  exact ⟨_, List.getElem_mem (n := 1) (by decide), rfl, h data⟩

/-- The row of `wrSample`. -/
theorem KeySelectsRow.wrSample (data : Byte) : KeySelectsRow.Statement (.wrSample data) := by
  have h : ∀ d : Byte, OpcodeRow.selects opcodeRows[2] (decodeKeyOf true 1 0 d) = true := by decide +kernel
  rintro - - - k ⟨⟩
  exact ⟨_, List.getElem_mem (n := 2) (by decide), rfl, h data⟩

/-- The row of `wrPitchl`. -/
theorem KeySelectsRow.wrPitchl (data : Byte) : KeySelectsRow.Statement (.wrPitchl data) := by
  have h : ∀ d : Byte, OpcodeRow.selects opcodeRows[3] (decodeKeyOf true 2 0 d) = true := by decide +kernel
  rintro - - - k ⟨⟩
  exact ⟨_, List.getElem_mem (n := 3) (by decide), rfl, h data⟩

/-- The row of `wrPitchh`. -/
theorem KeySelectsRow.wrPitchh (data : Byte) : KeySelectsRow.Statement (.wrPitchh data) := by
  have h : ∀ d : Byte, OpcodeRow.selects opcodeRows[4] (decodeKeyOf true 3 0 d) = true := by decide +kernel
  rintro - - - k ⟨⟩
  exact ⟨_, List.getElem_mem (n := 4) (by decide), rfl, h data⟩

/-- The row of `wrKeyoff`. -/
theorem KeySelectsRow.wrKeyoff (data : Byte) : KeySelectsRow.Statement (.wrKeyoff data) := by
  have h : ∀ d : Byte, (!d.getLsbD 7) = true → OpcodeRow.selects opcodeRows[5] (decodeKeyOf true 4 0 d) = true := by
    decide +kernel
  rintro hw - - k ⟨⟩
  exact ⟨_, List.getElem_mem (n := 5) (by decide), rfl, h data hw⟩

/-- The row of `wrKeyon`. -/
theorem KeySelectsRow.wrKeyon (data : Byte) : KeySelectsRow.Statement (.wrKeyon data) := by
  have h : ∀ d : Byte, d.getLsbD 7 = true → OpcodeRow.selects opcodeRows[6] (decodeKeyOf true 4 0 d) = true := by
    decide +kernel
  rintro hw - - k ⟨⟩
  exact ⟨_, List.getElem_mem (n := 6) (by decide), rfl, h data hw⟩

/-- The row of `wrTlramp`. -/
theorem KeySelectsRow.wrTlramp (data : Byte) : KeySelectsRow.Statement (.wrTlramp data) := by
  have h : ∀ d : Byte, (!d.getLsbD 0) = true → OpcodeRow.selects opcodeRows[7] (decodeKeyOf true 5 0 d) = true := by
    decide +kernel
  rintro hw - - k ⟨⟩
  exact ⟨_, List.getElem_mem (n := 7) (by decide), rfl, h data hw⟩

/-- The row of `wrTlset`. -/
theorem KeySelectsRow.wrTlset (data : Byte) : KeySelectsRow.Statement (.wrTlset data) := by
  have h : ∀ d : Byte, d.getLsbD 0 = true → OpcodeRow.selects opcodeRows[8] (decodeKeyOf true 5 0 d) = true := by
    decide +kernel
  rintro hw - - k ⟨⟩
  exact ⟨_, List.getElem_mem (n := 8) (by decide), rfl, h data hw⟩

/-- The row of `wrLfo`. -/
theorem KeySelectsRow.wrLfo (data : Byte) : KeySelectsRow.Statement (.wrLfo data) := by
  have h : ∀ d : Byte, OpcodeRow.selects opcodeRows[9] (decodeKeyOf true 6 0 d) = true := by decide +kernel
  rintro - - - k ⟨⟩
  exact ⟨_, List.getElem_mem (n := 9) (by decide), rfl, h data⟩

/-- The row of `wrAm`. -/
theorem KeySelectsRow.wrAm (data : Byte) : KeySelectsRow.Statement (.wrAm data) := by
  have h : ∀ d : Byte, OpcodeRow.selects opcodeRows[10] (decodeKeyOf true 7 0 d) = true := by decide +kernel
  rintro - - - k ⟨⟩
  exact ⟨_, List.getElem_mem (n := 10) (by decide), rfl, h data⟩

/-- The row of `selv`. -/
theorem KeySelectsRow.selv (data : Byte) : KeySelectsRow.Statement (.selv data) := by
  have h : ∀ (v : Bool) (sel : BitVec 3) (d : Byte),
      OpcodeRow.selects opcodeRows[11] (decodeKeyOf v sel 1 d) = true := by decide +kernel
  rintro - v sel k ⟨⟩
  exact ⟨_, List.getElem_mem (n := 11) (by decide), rfl, h v sel data⟩

/-- The row of `selr`. -/
theorem KeySelectsRow.selr (data : Byte) : KeySelectsRow.Statement (.selr data) := by
  have h : ∀ (v : Bool) (sel : BitVec 3) (d : Byte),
      OpcodeRow.selects opcodeRows[12] (decodeKeyOf v sel 2 d) = true := by decide +kernel
  rintro - v sel k ⟨⟩
  exact ⟨_, List.getElem_mem (n := 12) (by decide), rfl, h v sel data⟩

/-- The row of `rsvdP3`. -/
theorem KeySelectsRow.rsvdP3 (data : Byte) : KeySelectsRow.Statement (.rsvdP3 data) := by
  have h : ∀ (v : Bool) (sel : BitVec 3) (d : Byte),
      OpcodeRow.selects opcodeRows[13] (decodeKeyOf v sel 3 d) = true := by decide +kernel
  rintro - v sel k ⟨⟩
  exact ⟨_, List.getElem_mem (n := 13) (by decide), rfl, h v sel data⟩

/-- `tick` has no key. -/
theorem KeySelectsRow.tick : KeySelectsRow.Statement .tick := by
  rintro - - - k ⟨⟩

/-- `reset` has no key. -/
theorem KeySelectsRow.reset : KeySelectsRow.Statement .reset := by
  rintro - - - k ⟨⟩

/-- `clock` has no key. -/
theorem KeySelectsRow.clock (fIn : Rat) : KeySelectsRow.Statement (.clock fIn) := by
  rintro - - - k ⟨⟩

end Sys2Proof.Laws
end

