-- ==== Sys2Proof/Laws/Tables.lean ====
section
/-! SUPPORT. The machine's tables and input clock meet the constraints of 00_scope.md R12 and R10, and bringing tables
under those constraints changes no tables that meet them. -/

namespace Sys2Proof.Machine

open Sys2Proof.Config (Tables)

/-- The held table lies between its ends. -/
theorem heldBetweenEnds_ok (t : BitVec 6 → Nat) : SlowestToFastest (heldBetweenEnds t) := by
  intro i
  have h0 : heldBetweenEnds t 0 = t 0 := rfl
  have h63 : heldBetweenEnds t 63 = max (t 0) (t 63) := by simp [heldBetweenEnds]
  rw [h0, h63]
  unfold heldBetweenEnds
  split <;> omega

/-- A table that lies between its ends is not changed. -/
theorem heldBetweenEnds_of_ok {t : BitVec 6 → Nat} (h : SlowestToFastest t) : heldBetweenEnds t = t := by
  funext i
  have := h i
  have := h 63
  unfold heldBetweenEnds
  split
  · next e => rw [e]
  · omega

/-- The running maximum does not decrease. -/
theorem runningMax_mono (t : Nat → Nat) {i j : Nat} (h : i ≤ j) : runningMax t i ≤ runningMax t j := by
  induction j with
  | zero => rw [Nat.le_zero.1 h]
  | succ j ih =>
    rcases Nat.lt_or_eq_of_le h with hlt | rfl
    · exact (ih (by omega)).trans (Nat.le_max_left _ _)
    · exact Nat.le_refl _

/-- The running maximum of entries that do not decrease up to `n` is the entry at `n`. -/
theorem runningMax_of_mono {t : Nat → Nat} {n : Nat} (h : ∀ i j, i ≤ j → j ≤ n → t i ≤ t j) : runningMax t n = t n := by
  induction n with
  | zero => rfl
  | succ n ih =>
    rw [runningMax, ih fun i j hij hj => h i j hij (by omega)]
    exact Nat.max_eq_right (h n (n + 1) (by omega) (Nat.le_refl _))

/-- The constrained tables meet R12's constraints. -/
theorem constrainTables_ok (T : Tables) : TablesOk (constrainTables T) where
  attack := heldBetweenEnds_ok _
  decay := heldBetweenEnds_ok _
  gain _ _ h := runningMax_mono _ h
  raise := Int.lt_of_lt_of_le Int.one_pos (Int.le_max_left ..)
  lower := Int.lt_of_le_of_lt (Int.min_le_left ..) (by decide)
  pitchFlat _ := rfl
  ampFlat _ := rfl
  panSilent key h := by simp [constrainTables, h]
  panCentre key h := by simp [constrainTables, h]

/-- Tables that meet R12's constraints are not changed: every choice the spec allows remains possible. -/
theorem constrainTables_of_ok {T : Tables} (h : TablesOk T) : constrainTables T = T := by
  cases T
  simp only [constrainTables, Config.Tables.mk.injEq]
  refine ⟨trivial, trivial, heldBetweenEnds_of_ok h.attack, heldBetweenEnds_of_ok h.decay, ?_, ?_, ?_, trivial, trivial, trivial,
    ?_, ?_, ?_, ?_⟩
  · funext i
    rw [runningMax_of_mono fun a b hab hb => ?_]
    · simp
    · have hi := i.isLt
      refine h.gain _ _ ?_
      simp only [BitVec.toNat_ofNat]
      rw [Nat.mod_eq_of_lt (by omega), Nat.mod_eq_of_lt (by omega)]
      exact hab
  · have := h.raise; simp only at this; omega
  · have := h.lower; simp only at this; omega
  · funext d i
    have := h.pitchFlat i
    unfold flatRowZero
    split
    · next e => rw [e]; exact this.symm
    · rfl
  · funext d i
    have := h.ampFlat i
    unfold flatRowZero
    split
    · next e => rw [e]; exact this.symm
    · rfl
  · funext key
    split
    · next e => exact (h.panSilent key e).1.symm
    · rfl
  · funext key
    split
    · next e => exact (h.panSilent key e).2.symm
    · split
      · next e => exact h.panCentre key e
      · rfl

/-- The machine's tables meet R12's constraints. -/
theorem tables_ok : TablesOk tables := constrainTables_ok _

/-- The input clock is positive (00_scope.md R10). -/
theorem inputClock_pos : 0 < inputClock := by
  unfold inputClock
  split
  · assumption
  · decide

end Sys2Proof.Machine
end

