-- ==== Sys2Proof/Tests/Slice0.lean ====
section
/-! SUPPORT. Tests: the ill-formed terms that WellFormed refuses, words written out from 30_encoding.md R104 and R105,
values of 95_test_vectors.md, and for each statement with hypotheses a concrete witness that meets them. -/

namespace Sys2Proof.Tests

open Sys2Proof.Machine

/-! ### WellFormed -/

theorem test_wellFormed_refuses_keyoff_bit7 : Instr.wellFormed (.wrKeyoff 0x80) = false := by decide
theorem test_wellFormed_refuses_keyon_bit7 : Instr.wellFormed (.wrKeyon 0x7F) = false := by decide
theorem test_wellFormed_refuses_tlramp_bit0 : Instr.wellFormed (.wrTlramp 0x65) = false := by decide
theorem test_wellFormed_refuses_tlset_bit0 : Instr.wellFormed (.wrTlset 0x64) = false := by decide
theorem test_wellFormed_refuses_clock_zero : Instr.wellFormed (.clock 0) = false := by decide +kernel
theorem test_eventWellFormed_refuses_clock_zero : Event.wellFormed (.clock 0) = false := by decide +kernel

/-! ### Decoding: the keys of 95_test_vectors.md V-R, bit by bit: voice_valid, sel_reg, port, data -/

theorem test_decode_novoice : decodeTableWord 16 0b00110000010010 = some (.wrNovoice 0x12) := by decide
theorem test_decode_pan : decodeTableWord 16 0b10000010001111 = some (.wrPan 0x8F) := by decide
theorem test_decode_sample : decodeTableWord 16 0b10010000000101 = some (.wrSample 0x05) := by decide
theorem test_decode_pitchl : decodeTableWord 16 0b10100011111100 = some (.wrPitchl 0xFC) := by decide
theorem test_decode_pitchh : decodeTableWord 16 0b10110010001111 = some (.wrPitchh 0x8F) := by decide
theorem test_decode_keyoff : decodeTableWord 16 0b11000001111111 = some (.wrKeyoff 0x7F) := by decide
theorem test_decode_keyon : decodeTableWord 16 0b11000010000000 = some (.wrKeyon 0x80) := by decide
theorem test_decode_tlramp : decodeTableWord 16 0b11010001100100 = some (.wrTlramp 0x64) := by decide
theorem test_decode_tlset : decodeTableWord 16 0b11010001100101 = some (.wrTlset 0x65) := by decide
theorem test_decode_lfo : decodeTableWord 16 0b11100000000000 = some (.wrLfo 0x00) := by decide
theorem test_decode_am : decodeTableWord 16 0b11110000001000 = some (.wrAm 0x08) := by decide
theorem test_decode_selv : decodeTableWord 16 0b01110100000000 = some (.selv 0x00) := by decide
theorem test_decode_selr : decodeTableWord 16 0b10101000001001 = some (.selr 0x09) := by decide
theorem test_decode_rsvdP3 : decodeTableWord 16 0b10101111111111 = some (.rsvdP3 0xFF) := by decide
theorem test_decode_events : decode false 0 .tick = .ok .tick ∧ decode true 7 .reset = .ok .reset ∧
    decode true 0 (.clock 8000000) = .ok (.clock 8000000) := by decide +kernel
theorem test_decode_refuses_clock_zero : decode true 0 (.clock 0) = .error .clockNotPositive := by decide +kernel

/-- The program notation of 30_encoding.md R123: `KEYON 0x02` as its three bus words 0x102, 0x204, 0x080. -/
theorem test_pseudo_keyon : (pseudoKeyon 0x02).map (fun e => match e with
    | .write p d => (busWord p d).toNat
    | _ => 0) = [0x102, 0x204, 0x080] := by decide

/-! ### Values of 95_test_vectors.md -/

/-- The entries of the spec's reference configuration RC that these tests read (93_implementation_defined.md 4); every
other entry is 0. -/
def rc : Config.Tables where
  tlKeySample := .afterRamp
  freqStep _ p := 44100 * (4096 + 4 * p.toNat)
  attackStep i := if i = 63 then 67108864 else 0
  decayStep i := if i = 16 then 136 else if i = 32 then 2184 else if i = 52 then 61747 else if i = 63 then 221260 else 0
  expGain i := if i = 1023 then 4052 else if i = 1022 then 4008 else 0
  tlStepRaise := 76
  tlStepLower := -152
  lfoPhaseStep f := if f = 5 then 8 else if f = 7 then 10 else 0
  plfoWave i := if i = 64 then 127 else 0
  alfoWave i := if i = 0 then 255 else 0
  pscale d i := if d = 7 ∧ i = 255 then 267 else 256
  ascale d i := if d = 7 ∧ i = 255 then 16 else 256
  panL k := if k = 0 then 1024 else 0
  panR k := if k = 0 then 1024 else 0

/-- L1-7: the header at bytes 60..71. -/
def rom5 : Memory := Memory.placeAll [] 60 [0x80, 0x12, 0x34, 0x00, 0x0A, 0xFF, 0x9B, 0x2B, 0xF3, 0xA7, 0x3C, 0x05]

/-- P2: the group of four packed samples at 0x200. -/
def rom12 : Memory := Memory.placeAll [] 0x200 [0x12, 0x34, 0x56, 0x78, 0x9A, 0xBC]

/-- L1-7. -/
theorem test_header : headerDecode rom5 5 = {
    start := 0x1234, format := .packed12, loopPos := 10, endPos := 100, ar := 15, d1r := 3, d2r := 7, dl := 10, rr := 12,
    krs := 3, lfoVib := 0x2B, lfoAmp := 5 } := by decide

/-- L1-7: registers, latches and rates after the register-1 write. -/
theorem test_sample : let v := (Voice.reset rc).writeSample rc rom5 0x05
    v.regs = #v[0, 5, 0, 0, 0, 0, 0x2B, 5] ∧ v.base = 0x1234 ∧ v.format = .packed12 ∧ v.plfo.depth = 3 ∧
    v.alfo.depth = 5 ∧ v.plfo.pstep = 8 ∧ v.alfo.pstep = 8 ∧ v.eg.ar = 67108864 ∧ v.eg.d1r = 136 ∧ v.eg.d2r = 2184 ∧
    v.eg.rr = 61747 ∧ v.eg.thr = 5 ∧ v.playing = false := by decide +kernel

/-- V-W. -/
theorem test_pan : ((Voice.reset rc).writePan 0x8F).pan = 8 ∧ ((Voice.reset rc).writePan 0x8F).reg 0 = 0x8F := by decide

/-- V-P1: `regs[3] = 0x10`, then `WR 0x00` to register 2 at `R = 44100`. -/
theorem test_pitchl : (((Voice.reset rc).storeReg 3 0x10).writePitch rc 44100 2 0x00).step = 4096 := by decide +kernel

/-- V-P3: `regs[2] = 0xFC`, then `WR 0x8F` to register 3. -/
theorem test_pitchh : (((Voice.reset rc).storeReg 2 0xFC).writePitch rc 44100 3 0x8F).step = 1048064 := by
  decide +kernel

/-- A voice with the given release code that plays in DECAY1. -/
def sounding (rr : BitVec 4) : Voice :=
  let v := Voice.reset rc
  { v with playing := true, smp := { v.smp with rr := rr }, eg := { v.eg with state := .decay1, vol := 67043328 } }

/-- 40_register_bank.md R163's example. -/
theorem test_keyoff : ((sounding 15).writeKeyoff 0).playing = false ∧ ((sounding 12).writeKeyoff 0).playing = true ∧
    ((sounding 12).writeKeyoff 0).eg.state = .release ∧ ((sounding 12).writeKeyoff 0).eg.vol = 67043328 := by decide

/-- L1-6. -/
theorem test_keyon : let v := { sounding 0 with offset := 40960, prev := 25344 }.writeKeyon rc 0x80
    v.offset = 0 ∧ v.prev = 0 ∧ v.eg.state = .attack ∧ v.eg.vol = 0 ∧ v.playing = true := by decide

/-- V-T1. -/
theorem test_tlset : ((Voice.reset rc).writeTlset 0x65).destTl = 50 ∧ ((Voice.reset rc).writeTlset 0x65).tl = 204800 := by
  decide

/-- V-T2 and V-T3. -/
theorem test_tlramp : ((Voice.reset rc).writeTlramp rc 0x64).tlStep = 76 ∧
    (((Voice.reset rc).writeTlset 0x65).writeTlramp rc 0x00).tlStep = -152 ∧
    rampTl 204744 50 76 = 204800 ∧ rampTl 56 0 (-152) = 0 ∧ rampTl 204800 50 76 = 204800 := by decide

/-- P5, events 12 and 14. -/
theorem test_lfo : let v := ((Voice.reset rc).writeLfoReg rc 7 0x08).writeLfoReg rc 6 0x2B
    v.plfo = { phase := 0, pstep := 8, depth := 3 } ∧ v.alfo = { phase := 0, pstep := 8, depth := 0 } := by decide

/-- V-L11: a zero byte recomputes nothing. -/
theorem test_am : let v := ((Voice.reset rc).writeLfoReg rc 6 0x38).writeLfoReg rc 7 0x00
    v.reg 7 = 0 ∧ v.alfo.pstep = 10 ∧ v.plfo.pstep = 10 := by decide

/-- V-S. -/
theorem test_selv : ([0x00, 0x06, 0x07, 0x08, 0x1E, 0x1F, 0x29, 0xFF] : List Byte).map
    (fun d => voiceTable (voiceCode d)) = [some 0, some 6, none, some 7, some 27, none, some 8, none] := by decide

/-- L1-11. -/
theorem test_selr : ([0x00, 0x07, 0x08, 0x09, 0xFF] : List Byte).map registerSelect = [0, 7, 7, 7, 7] := by decide

/-- L1-5. -/
theorem test_packed12 : ([0, 1, 2, 3] : List (BitVec 16)).map (fun n => (decode12 rom12 0x200 n).toInt) =
    [4672, 22064, 30880, -17264] := by decide

/-- V-L4, V-L6: modifiers of the two units at depth 7, and the floor of a negative product. -/
theorem test_modifiers : pitchModifier rc { phase := 0x4000, pstep := 0, depth := 7 } = 4272 ∧
    ampModifier rc { phase := 0, pstep := 0, depth := 7 } = 256 ∧ floorShift (-1000 * 256) modBits = -63 := by decide

/-- P2 tick 6, voice 7: its new state and its addends. -/
def packedVoice : Voice :=
  { sounding 0 with
    base := 0x200, format := .packed12, offset := 10240, step := 2048, prev := 22064
    smp := { (sounding 0).smp with endPos := 8 } }

/-- P2, tick 6. -/
theorem test_tick : let r := packedVoice.tick rc rom12
    r.left = 26187 ∧ r.right = 26187 ∧ r.voice.prev = 30880 ∧ r.voice.offset = 12288 := by decide

/-- L1-3: the wrap drops what lies past the end. -/
theorem test_wrap : advanceOffset { Sample.reset with endPos := 100, loopPos := 10 } 405504 5000 = 40960 := by decide

/-- V-E1, V-E3 and V-E6: the clamp, the end of a release and the threshold on the new volume. -/
theorem test_envelope : let e := (sounding 0).eg
    { e with state := .attack, vol := 0, ar := 67108864 }.tick = { e with state := .decay1, ar := 67108864 } ∧
    { e with state := .release, vol := 1548, rr := 221260 }.tick.vol = 0 ∧
    { e with state := .decay1, vol := 222808, d1r := 221260, thr := 0 }.tick =
      { e with state := .decay2, vol := 1548, d1r := 221260, thr := 0 } := by decide

/-- V-M8 and V-M9. -/
theorem test_saturate : (saturate 49636).toInt = 32767 ∧ (saturate (-64832)).toInt = -32768 := by decide

/-! ### One step from the reset state -/

/-- A placed word runs from reset: `WR.PAN`. -/
theorem test_step_pan : (match step (State.reset.withFetchWord 16 0x208F) with
    | .next t => (t.voice 0).pan
    | _ => 0) = 8 := by decide +kernel

/-- With nothing placed the first step is a `TICK`. -/
theorem test_step_tick : step State.reset = exec .tick State.reset := rfl

/-! ### Witnesses: concrete states and operands that meet the hypotheses of each statement, clause by clause -/

/-- The reset state at `R = 44100`, with voice 27 selected and equal to `x`. -/
def at27 (x : Voice) : State :=
  { State.reset with selVoice := some 27, rate := 44100, voices := State.reset.voices.set 27 x }

/-- Voice 27 of that state. -/
@[simp] theorem at27_voice (x : Voice) : (at27 x).voice 27 = x := by simp [at27, State.voice]

/-- Another voice of that state. -/
theorem at27_voice_0 (x : Voice) : (at27 x).voice 0 = Voice.reset tables := by simp [at27, State.voice, State.reset]

/-- That state with events to come. -/
def pendingAt27 (events : List Event) : State := { at27 (sounding 0) with pending := events }

/-- The reset state with no voice selected and events to come. -/
def noVoice (events : List Event) : State := { State.reset with selVoice := none, pending := events }

theorem witness_DecodeInvertsEncode : Instr.wellFormed (.wrKeyoff 0x7F) = true ∧ Instr.wellFormed (.wrKeyon 0x80) = true ∧
    Instr.wellFormed (.wrTlramp 0xFE) = true ∧ Instr.wellFormed (.wrTlset 0x01) = true ∧
    Instr.wellFormed (.clock 1) = true := by decide +kernel

theorem witness_EncodeInvertsDecode : decode true 4 (.write 0 0x80) = .ok (.wrKeyon 0x80) ∧
    decode false 7 (.write 0 0xFF) = .ok (.wrNovoice 0xFF) ∧ decode true 7 (.clock 1) = .ok (.clock 1) := by
  decide +kernel

theorem witness_EveryKeyMatchesExactlyOneRow : (noVoice [.write 3 0xFF]).pending = .write 3 0xFF :: [] := rfl

theorem witness_StepRunsTheDecodedOperation :
    decode (pendingAt27 [.reset]).voiceValid (pendingAt27 [.reset]).selReg (pendingAt27 [.reset]).nextEvent =
      .ok .reset ∧ (pendingAt27 [.reset]).pending = .reset :: [] ∧ State.reset.pending = [] ∧
    (noVoice [.clock 0]).nextEvent = .clock 0 ∧ ¬ (0 : Rat) < 0 := ⟨rfl, rfl, rfl, rfl, by decide +kernel⟩

theorem witness_PlacedWordRuns : (16 : Nat) ≠ 0 ∧ (0 : Nat) < 2 ^ 14 ∧ (16383 : Nat) < 2 ^ 14 := by decide

theorem witness_EveryEventCompletes : Event.wellFormed State.reset.nextEvent = true ∧
    Event.wellFormed (noVoice [.clock 1]).nextEvent = true :=
  ⟨rfl, by
    have : (noVoice [.clock 1]).nextEvent = .clock 1 := rfl
    rw [this]
    decide +kernel⟩

theorem witness_SelvSelectsTheTableVoice : (0x07 : Byte).toNat % 8 = 7 ∧ (0xFF : Byte).toNat % 8 = 7 ∧
    (0x00 : Byte).toNat % 8 ≠ 7 ∧ (0xFE : Byte).toNat % 8 ≠ 7 := by decide

theorem witness_ReservedPortChangesNothing : (noVoice [.write 3 0xFF]).pending = .write 3 0xFF :: [] := rfl

theorem witness_NoVoiceWritesChangeNothing :
    ((noVoice [.write 0 0, .write 0 0xFF, .tick]).selVoice = none ∧
      (noVoice [.write 0 0, .write 0 0xFF, .tick]).pending = [(0 : Byte), 0xFF].map (Event.write 0) ++ [.tick]) ∧
    ((noVoice [.write 2 4]).selVoice = none ∧ (∀ d, (noVoice [.write 2 4]).nextEvent ≠ .write 1 d) ∧
      (noVoice [.write 2 4]).nextEvent ≠ .reset ∧
      step (noVoice [.write 2 4]) = .next { noVoice [] with selReg := 4 }) ∧
    (pendingAt27 [.write 1 0x07, .write 2 4, .write 0 0x80]).pending =
      .write 1 0x07 :: .write 2 4 :: .write 0 0x80 :: [] := by
  have h : (noVoice [.write 2 4]).nextEvent = .write 2 4 := rfl
  exact ⟨⟨rfl, rfl⟩, ⟨rfl, fun d e => by rw [h] at e; simp at e, fun e => by rw [h] at e; simp at e, rfl⟩, rfl⟩

theorem witness_RegisterWritesNeedAVoice : (noVoice []).selVoice = none := rfl

theorem witness_DataWriteStoresTheByte : (pendingAt27 [.write 0 0xFF]).selVoice = some 27 ∧
    (pendingAt27 [.write 0 0xFF]).pending = .write 0 0xFF :: [] ∧
    (pendingAt27 [.write 0 0xFF]).selReg.toNat = (0 : Fin 8).val ∧ (1 : Fin 8) ≠ 0 ∧
    (0 : Fin 8) ≠ 1 ∧ (5 : Fin 8) ≠ 1 ∧ (5 : Fin 8) ≠ 6 ∧ (5 : Fin 8) ≠ 7 ∧
    { pendingAt27 [.write 0 0xFF] with selReg := 7 }.selReg.toNat = (7 : Fin 8).val := by
  refine ⟨rfl, rfl, rfl, ?_⟩
  decide

theorem witness_WrPanSetsThePanCode : (at27 (sounding 0)).selVoice = some 27 ∧ (0x80 : Byte).toNat / 16 = 8 ∧
    (0x8F : Byte).toNat / 16 = 8 := ⟨rfl, by decide⟩

/-- The L1-7 header, and a ROM with neither LFO byte, with one, with the other. -/
theorem witness_WrSampleLoadsTheHeader : (at27 (sounding 0)).selVoice = some 27 ∧
    ((headerDecode [] 511).lfoVib = 0 ∧ (headerDecode [] 511).lfoAmp = 0) ∧
    ((headerDecode rom5 5).lfoVib ≠ 0 ∧ (headerDecode rom5 5).lfoAmp ≠ 0) ∧
    ((headerDecode [(7, 1)] 0).lfoVib ≠ 0 ∧ (headerDecode [(7, 1)] 0).lfoAmp = 0) ∧
    ((headerDecode [(11, 0x0F)] 0).lfoVib = 0 ∧ (headerDecode [(11, 0x0F)] 0).lfoAmp ≠ 0) ∧
    ((at27 (sounding 0)).voice 27).playing = true ∧ ((at27 (Voice.reset rc)).voice 27).playing = false := by
  refine ⟨rfl, ?_, ?_, ?_, ?_, ?_, ?_⟩
  all_goals decide

theorem witness_OctaveAndPitchFraction : (0x0F : Byte).toNat / 16 = 0 ∧
    (1 ≤ (0x10 : Byte).toNat / 16 ∧ (0x10 : Byte).toNat / 16 ≤ 8) ∧
    (1 ≤ (0x8F : Byte).toNat / 16 ∧ (0x8F : Byte).toNat / 16 ≤ 8) ∧ 9 ≤ (0x90 : Byte).toNat / 16 ∧
    9 ≤ (0xFF : Byte).toNat / 16 := by decide

theorem witness_PitchWritesSetTheStep : (at27 (sounding 0)).selVoice = some 27 ∧ 0 < (at27 (sounding 0)).rate ∧
    (Instr.wrPitchl 0xFF = .wrPitchl 0xFF ∧ (2 : Fin 8) = 2) ∧ (Instr.wrPitchh 0xFF = .wrPitchh 0xFF ∧ (3 : Fin 8) = 3) :=
  ⟨rfl, by show (0 : Rat) < 44100; decide +kernel, ⟨rfl, rfl⟩, ⟨rfl, rfl⟩⟩

theorem witness_WrKeyonRestartsTheVoice : (at27 (sounding 0)).selVoice = some 27 := rfl

theorem witness_WrKeyoffReleasesTheVoice : (at27 (sounding 15)).selVoice = some 27 ∧
    ((at27 (sounding 15)).voice 27).smp.rr.toNat = 15 ∧ ((at27 (sounding 14)).voice 27).smp.rr.toNat ≠ 15 := by
  refine ⟨rfl, ?_, ?_⟩ <;> rw [at27_voice] <;> decide

theorem witness_WrTlsetSetsTheLevel : (at27 (sounding 0)).selVoice = some 27 := rfl

theorem witness_WrTlrampChoosesTheStep : (at27 (sounding 0)).selVoice = some 27 ∧
    ((at27 { sounding 0 with tl := 204801 }).voice 27).tl.toNat > (0x64 : Byte).toNat / 2 * 4096 ∧
    ((at27 { sounding 0 with tl := 204800 }).voice 27).tl.toNat ≤ (0x64 : Byte).toNat / 2 * 4096 := by
  refine ⟨rfl, ?_, ?_⟩ <;> rw [at27_voice] <;> decide

theorem witness_LfoWritesLatchBothUnits : (at27 (sounding 0)).selVoice = some 27 ∧
    (Instr.wrLfo 0 = .wrLfo 0 ∧ (6 : Fin 8) = 6) ∧ (Instr.wrAm 0x01 = .wrAm 0x01 ∧ (7 : Fin 8) = 7) ∧
    (0x01 : Byte) ≠ 0 := ⟨rfl, ⟨rfl, rfl⟩, ⟨rfl, rfl⟩, by decide⟩

theorem witness_ClockChangesOnlyTheRate : (at27 (sounding 0)).selVoice = some 27 := rfl

theorem silent_reset : Silent State.reset := fun v => by simp [State.voice, State.reset, Voice.reset]

theorem witness_SilentUntilKeyon : Silent State.reset ∧ (∀ d, Instr.tick ≠ .wrKeyon d) ∧
    ∀ d, Instr.wrKeyoff 0 ≠ .wrKeyon d := ⟨silent_reset, by simp, by simp⟩

theorem witness_GetRateClampsTheIndex : (0#4).toNat = 0 ∧ (15#4).toNat = 15 ∧
    ((1#4).toNat ≠ 0 ∧ (1#4).toNat ≠ 15 ∧ 4 * ((1#4).toNat : Int) + (-5) < 0) ∧
    ((14#4).toNat ≠ 0 ∧ (14#4).toNat ≠ 15 ∧ 63 < 4 * ((14#4).toNat : Int) + 8) ∧
    4 * ((1#4).toNat : Int) + (-4) = (0#6).toNat ∧ 4 * ((14#4).toNat : Int) + 7 = (63#6).toNat := by decide

theorem witness_KeyRateFormula : (15#4).toNat = 15 ∧ (14#4).toNat ≠ 15 ∧ (0#4).toNat ≠ 15 := by decide

theorem witness_AddressesStayInTheRom : (0 : Nat) < 12 ∧ (11 : Nat) < 12 ∧ (0 : Nat) < 6 ∧ (5 : Nat) < 6 := by decide

theorem witness_HeaderFields : exec .tick State.reset = .next (State.reset.tick tables) ∧
    (∀ d, Instr.tick ≠ .wrSample d) ∧ Instr.tick ≠ .reset := ⟨rfl, by simp, by simp⟩

theorem witness_Linear8Sample : (sounding 0).format = .linear8 := rfl

theorem witness_Packed12Samples : packedVoice.format = .packed12 ∧ (0xFFFC#16).toNat % 4 = 0 ∧
    (0xFFFD#16).toNat % 4 = 1 ∧ (0xFFFE#16).toNat % 4 = 2 ∧ (0xFFFF#16).toNat % 4 = 3 := ⟨rfl, by decide⟩

theorem witness_InterpolationIsBetween : (0 : Nat) < 4096 ∧ (4095 : Nat) < 4096 := by decide

/-- A playing voice at a sample position, with a step, an end, a loop and register 6. -/
def moving (offset : BitVec 28) (step : Nat) (reg6 : Byte) : Voice :=
  { sounding 0 with
    regs := #v[0, 0, 0, 0, 0, 0, reg6, 0], offset := offset, step := step
    smp := { (sounding 0).smp with endPos := 100, loopPos := 10 } }

theorem witness_TickAdvancesTheOffset : ((at27 (moving 405504 4096 0)).voice 27).playing = true ∧
    ((at27 (moving 405504 4096 0)).voice 27).reg 6 = 0 ∧ ((at27 (moving 405504 4096 1)).voice 27).reg 6 ≠ 0 ∧
    (moving 405504 4096 0).smp.endPos.toNat * 4096 ≤ (moving 405504 4096 0).offset.toNat + 4096 ∧
    (moving 405504 4095 0).offset.toNat + 4095 < (moving 405504 4095 0).smp.endPos.toNat * 4096 := by
  refine ⟨?_, ?_, ?_, ?_⟩ <;> (try rw [at27_voice]) <;> decide

/-- A step of 1 leaves position 98 from its last fraction, and a step of 4095 from its first stays there. -/
theorem witness_TickCapturesTheLeftSample : ((at27 (moving 405503 1 0)).voice 27).playing = true ∧
    (advanceOffset (moving 405503 1 0).smp 405503 1).toNat / 4096 ≠ 405503 / 4096 ∧
    (advanceOffset (moving 401408 4095 0).smp 401408 4095).toNat / 4096 = 401408 / 4096 := by
  refine ⟨?_, ?_⟩ <;> (try rw [at27_voice]) <;> decide

/-- A playing voice with a level, a destination and a ramp step. -/
def ramping (tl : BitVec 19) (tlStep : Int) : Voice := { sounding 0 with tl := tl, destTl := 50, tlStep := tlStep }

theorem witness_TickRampsTheLevel : ((at27 (ramping 204800 76)).voice 27).playing = true ∧
    ((ramping 204800 76).tl.toNat : Int) = (ramping 204800 76).destTl.toNat * 4096 ∧
    (((ramping 204799 0).tl.toNat : Int) ≠ (ramping 204799 0).destTl.toNat * 4096 ∧ 0 ≤ (ramping 204799 0).tlStep) ∧
    (((ramping 204801 (-1)).tl.toNat : Int) ≠ (ramping 204801 (-1)).destTl.toNat * 4096 ∧
      (ramping 204801 (-1)).tlStep < 0) := by
  refine ⟨?_, ?_⟩ <;> (try rw [at27_voice]) <;> decide

/-- A playing voice with an envelope. -/
def shaped (state : EgState) (vol : BitVec 26) (rate d1r : Nat) (thr : BitVec 4) : Voice :=
  { sounding 0 with eg := { state := state, vol := vol, ar := rate, d1r := d1r, d2r := rate, rr := rate, thr := thr } }

/-- At the ceiling exactly and one below it, with decay-1 rates on both sides of the skip. -/
theorem witness_TickInAttack : ((at27 (shaped .attack 1 67043327 67108864 0)).voice 27).playing = true ∧
    ((at27 (shaped .attack 1 67043327 67108864 0)).voice 27).eg.state = .attack ∧
    (let e := (shaped .attack 1 67043327 67108864 0).eg; 1023 * 65536 ≤ e.vol.toNat + e.ar ∧ 1024 * 65536 ≤ e.d1r) ∧
    (let e := (shaped .attack 1 67043327 67108863 0).eg; 1023 * 65536 ≤ e.vol.toNat + e.ar ∧ e.d1r < 1024 * 65536) ∧
    (let e := (shaped .attack 0 67043327 0 0).eg; e.vol.toNat + e.ar < 1023 * 65536) := by
  refine ⟨?_, ?_, ?_⟩ <;> (try rw [at27_voice]) <;> decide +kernel

/-- At the threshold exactly and one unit above it. -/
theorem witness_TickInDecay : ((at27 (shaped .decay1 62980095 0 0 15)).voice 27).playing = true ∧
    (let e := (shaped .decay1 62980095 0 0 15).eg; e.state = .decay1 ∧ e.tick.vol.toNat / 65536 ≤ e.thr.toNat * 64) ∧
    (let e := (shaped .decay1 62980096 0 0 15).eg; e.state = .decay1 ∧ e.thr.toNat * 64 < e.tick.vol.toNat / 65536) ∧
    (shaped .decay2 1548 1549 0 0).eg.state = .decay2 := by
  refine ⟨?_, ?_⟩ <;> (try rw [at27_voice]) <;> decide +kernel

theorem witness_TickInRelease : ((at27 (shaped .release 1548 1548 0 0)).voice 27).playing = true ∧
    ((at27 (shaped .release 1548 1548 0 0)).voice 27).eg.state = .release ∧
    (shaped .release 1548 1548 0 0).eg.vol.toNat ≤ (shaped .release 1548 1548 0 0).eg.rr ∧
    (shaped .release 1548 1547 0 0).eg.rr < (shaped .release 1548 1547 0 0).eg.vol.toNat := by
  refine ⟨?_, ?_, ?_⟩ <;> (try rw [at27_voice]) <;> decide +kernel

/-- A voice with both LFO units enabled, at depth 0. -/
def wavering : Voice := { sounding 0 with regs := #v[0, 0, 0, 0, 0, 0, 0x08, 0x08] }

theorem witness_TickAdvancesEnabledPhases : ((at27 wavering).voice 27).playing = true ∧ wavering.reg 6 ≠ 0 ∧
    wavering.reg 7 ≠ 0 ∧ ((at27 (Voice.reset rc)).voice 27).playing = false ∧ (sounding 0).reg 6 = 0 ∧
    (sounding 0).reg 7 = 0 := by
  refine ⟨?_, ?_, ?_, ?_, ?_⟩ <;> (try rw [at27_voice]) <;> decide

theorem witness_VoiceAddends : ((at27 wavering).voice 27).playing = true ∧ wavering.reg 7 ≠ 0 ∧
    ((at27 (sounding 0)).voice 27).playing = true ∧ (sounding 0).reg 7 = 0 := by
  refine ⟨?_, ?_, ?_, ?_⟩ <;> (try rw [at27_voice]) <;> decide

theorem witness_SilentVoicesTakeNoPart : ((at27 (Voice.reset rc)).voice 27).playing = false ∧
    (shaped .release 1548 1548 0 0).playing = true ∧ (shaped .release 1548 1548 0 0).eg.state = .release ∧
    (shaped .release 1548 1548 0 0).eg.vol.toNat ≤ (shaped .release 1548 1548 0 0).eg.rr := by
  refine ⟨?_, ?_⟩ <;> (try rw [at27_voice]) <;> decide +kernel

theorem witness_VoicesAreIndependent : (at27 (sounding 0)).voice 27 = (at27 (sounding 0)).voice 27 ∧
    (at27 (sounding 0)).voice 0 = (at27 (sounding 15)).voice 0 ∧ (at27 (sounding 0)).rom = (at27 (sounding 15)).rom ∧
    (at27 (sounding 0)).voices.toList.reverse.Perm (at27 (sounding 0)).voices.toList :=
  ⟨rfl, by rw [at27_voice_0, at27_voice_0], rfl, List.reverse_perm _⟩

theorem witness_EachTickEmitsOneFrame : Silent State.reset ∧ exec (.selr 0xFF) State.reset =
    .next { State.reset with selReg := 7 } ∧ Instr.selr 0xFF ≠ .tick := ⟨silent_reset, rfl, by simp⟩

theorem witness_PanCodesZeroAndEight : ((sounding 0).writePan 0x80).pan = 8 ∧ (sounding 0).pan = 0 := by decide

theorem witness_DepthZeroIsFlat : wavering.plfo.depth = 0 ∧ wavering.reg 6 ≠ 0 ∧ wavering.alfo.depth = 0 ∧
    wavering.reg 7 ≠ 0 := by decide

theorem witness_EnvelopeIsMonotone : (shaped .attack 67043328 1 0 0).eg.vol.toNat ≤ 1023 * 65536 ∧
    (shaped .attack 67043328 1 0 0).eg.state = .attack ∧ (shaped .release 0 1 0 0).eg.vol.toNat ≤ 1023 * 65536 ∧
    (shaped .release 0 1 0 0).eg.state ≠ .attack := by decide +kernel

/-- A playing voice after a tick of the state that holds it. -/
theorem at27_tick (x : Voice) (h : x.playing = true) :
    (((at27 x).tick tables).voice 27).eg = x.eg.tick ∧ exec .tick (at27 x) = .next ((at27 x).tick tables) := by
  refine ⟨?_, rfl⟩
  rw [State.tick_voice, at27_voice, Voice.tick_voice _ _ _ h, Voice.tickState_eq]

theorem witness_EnvelopeTransitions :
    (exec .tick (at27 (shaped .attack 1 67043327 0 0)) = .next ((at27 (shaped .attack 1 67043327 0 0)).tick tables) ∧
      Instr.tick ≠ .reset ∧ (shaped .attack 1 67043327 0 0).eg.state ≠ (shaped .attack 1 67043327 0 0).eg.tick.state ∧
      (shaped .attack 1 67043327 0 0).eg.tick.vol.toNat = 1023 * 65536 ∧
      (shaped .attack 1 67043327 67108863 0).eg.d1r < 1024 * 65536 ∧
      1024 * 65536 ≤ (shaped .attack 1 67043327 67108864 0).eg.d1r) ∧
    ((at27 (sounding 14)).selVoice = some 27 ∧ (sounding 14).playing = true ∧ (sounding 14).smp.rr.toNat ≠ 15 ∧
      (∃ d, Instr.wrKeyon 0x80 = .wrKeyon d) ∧ (∃ d, Instr.wrSample 0 = .wrSample d) ∧
      (∃ d, Instr.wrKeyoff 0 = .wrKeyoff d)) ∧
    ((shaped .decay1 62980095 0 0 15).eg.state = .decay1 ∧ (shaped .decay1 62980095 0 0 15).playing = true ∧
      (shaped .decay1 62980095 0 0 15).eg.tick.vol.toNat / 65536 ≤ (shaped .decay1 62980095 0 0 15).eg.thr.toNat * 64) ∧
    ((shaped .release 1548 1548 0 0).playing = true ∧ (shaped .release 1548 1548 0 0).eg.state = .release ∧
      (shaped .release 1548 1548 0 0).eg.tick.vol = 0) := by
  refine ⟨⟨rfl, by simp, ?_⟩, ⟨rfl, ?_, ?_, ⟨_, rfl⟩, ⟨_, rfl⟩, ⟨_, rfl⟩⟩, ?_⟩ <;> decide +kernel

theorem witness_PlayingChangesOnlyAsStated :
    exec (.wrKeyon 0x80) (at27 (Voice.reset rc)) = .next ((at27 (Voice.reset rc)).onSelected (Voice.writeKeyon tables 0x80)) ∧
    ((at27 (Voice.reset rc)).voice 27).playing = false ∧
    (((at27 (Voice.reset rc)).onSelected (Voice.writeKeyon tables 0x80)).voice 27).playing = true ∧
    exec (.wrKeyoff 0) (at27 (sounding 15)) = .next ((at27 (sounding 15)).onSelected (Voice.writeKeyoff 0)) ∧
    ((at27 (sounding 15)).voice 27).playing = true ∧
    (((at27 (sounding 15)).onSelected (Voice.writeKeyoff 0)).voice 27).playing = false := by
  have h : ∀ x, (at27 x).selVoice = some 27 := fun _ => rfl
  refine ⟨rfl, ?_, ?_, rfl, ?_, ?_⟩
  · rw [at27_voice]; rfl
  · rw [State.onSelected_voice, if_pos (h _), Voice.writeKeyon_eq]
  · rw [at27_voice]; rfl
  · rw [State.onSelected_voice, if_pos (h _), at27_voice]; decide

theorem witness_RomIsNeverWritten : step State.reset = .next (State.reset.tick tables) := rfl

theorem witness_WritesTouchOnlyTheSelectedVoice : Event.IsWrite (pendingAt27 [.write 2 7]).nextEvent ∧
    (pendingAt27 [.write 2 7]).selVoice ≠ some 0 ∧
    step (pendingAt27 [.write 2 7]) = .next { pendingAt27 [] with selReg := 7 } :=
  ⟨trivial, by simp [pendingAt27, at27], rfl⟩

theorem witness_StepsChangeOnlyAtWrites :
    exec (.wrPitchh 0x10) (at27 (sounding 0)) =
      .next ((at27 (sounding 0)).onSelected (Voice.writePitch tables 44100 3 0x10)) ∧
    Instr.wrPitchh 0x10 ≠ .reset ∧ ((sounding 0).writePitch rc 44100 3 0x10).step ≠ (sounding 0).step ∧
    ((sounding 0).writeLfoReg rc 6 0x28).plfo.pstep ≠ (sounding 0).plfo.pstep :=
  ⟨rfl, by simp, by decide +kernel, by decide⟩

theorem witness_LfoFieldsSurviveRetrigger :
    exec (.wrKeyon 0x80) (at27 wavering) = .next ((at27 wavering).onSelected (Voice.writeKeyon tables 0x80)) ∧
    (Instr.wrKeyon 0x80 ≠ .tick ∧ Instr.wrKeyon 0x80 ≠ .reset) ∧ (at27 wavering).selVoice = some 27 ∧
    exec (.wrSample 5) (at27 wavering) = .next ((at27 wavering).onSelected (Voice.writeSample tables [] 5)) :=
  ⟨rfl, by simp, rfl, rfl⟩

theorem reset_voice (v : VoiceId) : State.reset.voice v = Voice.reset tables := by simp [State.voice, State.reset]

theorem witness_StepKeepsRanges : State.reset.InRange ∧ step State.reset = .next (State.reset.tick tables) := by
  refine ⟨⟨fun v => ?_, ?_, rfl, by simp [State.reset]⟩, rfl⟩
  · rw [reset_voice]; simp [Voice.InRange, Voice.reset, Envelope.reset]
  · exact div_pos inputClock_pos (by decide +kernel)

theorem witness_StepKeepsRampAimed : (∀ v, (State.reset.voice v).RampAimed) ∧
    step State.reset = .next (State.reset.tick tables) := by
  refine ⟨fun v => ?_, rfl⟩
  rw [reset_voice]; simp [Voice.RampAimed, Voice.reset, destValue]

theorem witness_StepKeepsLatchedFields : (∀ v, (State.reset.voice v).Latched) ∧
    step State.reset = .next (State.reset.tick tables) := by
  refine ⟨fun v => ?_, rfl⟩
  rw [reset_voice]
  exact ⟨rfl, rfl, rfl, rfl, rfl⟩

theorem witness_StepKeepsLfoLatched : (∀ v, (State.reset.voice v).LfoLatched) ∧
    step State.reset = .next (State.reset.tick tables) := by
  refine ⟨fun v => ?_, rfl⟩
  rw [reset_voice]
  exact ⟨rfl, fun h => absurd rfl h, fun h => absurd rfl h⟩

theorem witness_StepKeepsPrevDecoded : (∀ v, (State.reset.voice v).PrevDecoded) ∧
    step State.reset = .next (State.reset.tick tables) := by
  refine ⟨fun v => ?_, rfl⟩
  rw [reset_voice]
  rfl

end Sys2Proof.Tests
end

/-! The proofs of the statements of 20_memory.md: the addresses the core reads, and the ROM it never writes. -/

namespace Sys2Proof.Machine

/-! ### Addresses -/

/-- The address of a header byte is the exact sum: the largest index is 511 (43_sample_decode.md R251). -/
theorem headerAddr_toNat (idx : BitVec 9) {n : Nat} (hn : n < 12) : (headerAddr idx n).toNat = idx.toNat * 12 + n := by
  have hidx : idx.toNat < 512 := idx.isLt
  have hfit : idx.toNat * 12 + n < 2 ^ 24 := by omega
  rw [headerAddr, BitVec.toNat_ofNat, Nat.mod_eq_of_lt hfit]

/-- A sample-data byte whose address fits in 24 bits is read at the exact sum. -/
theorem dataByte_eq_lookup (m : Memory) {base : BitVec 21} {k : Nat} (hfit : base.toNat + k < 2 ^ 24) :
    dataByte m base k = m.lookup (base.toNat + k) := by
  rw [dataByte, memRead, BitVec.toNat_ofNat, Nat.mod_eq_of_lt hfit]

/-- The address of a linear-8 byte fits in 24 bits (20_memory.md R80). -/
theorem linear8Addr_lt (base : BitVec 21) (spos : BitVec 16) : base.toNat + spos.toNat < 2 ^ 24 := by
  have hbase : base.toNat < 2 ^ 21 := base.isLt
  have hspos : spos.toNat < 2 ^ 16 := spos.isLt
  omega

/-- The largest address of a packed-linear-12 byte: the last byte of group 0x3FFF from base 0x1FFFFF
(20_memory.md R80). -/
theorem packed12Addr_le (base : BitVec 21) (spos : BitVec 16) {n : Nat} (hn : n < 6) :
    base.toNat + (spos.toNat / 4 * 6 + n) ≤ 0x217FFE := by
  have hbase : base.toNat < 2 ^ 21 := base.isLt
  have hgroup : spos.toNat / 4 < 2 ^ 14 := Nat.div_lt_of_lt_mul spos.isLt
  omega

/-- Settles O28: each address is bounded by the widths of its parts, so its 24-bit form is the exact sum. -/
theorem addressesStayInTheRom : Obligations.AddressesStayInTheRom := by
  refine ⟨fun idx n hn => ?header, fun base spos => ?widths, fun m base spos => ?linear8,
    fun m base spos n hn => ?packed12⟩
  case header =>
    have hidx : idx.toNat < 512 := idx.isLt
    rw [headerAddr_toNat idx hn]
    exact ⟨rfl, by omega⟩
  case widths => exact ⟨Nat.le_of_lt_succ base.isLt, Nat.le_of_lt_succ spos.isLt⟩
  case linear8 =>
    have hfit := linear8Addr_lt base spos
    exact ⟨hfit, dataByte_eq_lookup m hfit⟩
  case packed12 =>
    have hmax := packed12Addr_le base spos hn
    exact ⟨hmax, dataByte_eq_lookup m (hmax.trans_lt (by decide))⟩

/-! ### The ROM -/

/-- A step keeps the ROM: taking the event off the list keeps it, and so does every operation (20_memory.md R72). -/
theorem step_rom {s t : State} (h : step s = .next t) : t.rom = s.rom := by
  obtain ⟨i, -, hexec⟩ := step_next h
  obtain ⟨hrom, -⟩ := exec_outside hexec
  exact hrom.trans s.popEvent_rom

/-- Settles O51: the ROM is the same listing after a step, so every read of it is the same. -/
theorem romIsNeverWritten : Obligations.RomIsNeverWritten := by
  intro s t h
  have hrom := step_rom h
  exact ⟨hrom, fun a => congrArg (memRead · a) hrom⟩

end Sys2Proof.Machine

/-! The proofs of the statements of 30_encoding.md: every key has exactly one row, and the operands assembled from
registers 2 and 3. -/

namespace Sys2Proof.Machine

/-! ### The decoder's answer and its key -/

/-- A bus write decodes to the operation of its key (30_encoding.md R103, R104). -/
theorem decode_write_eq_decodeKey (valid : Bool) (sel : BitVec 3) (port : Port) (data : Byte) :
    decode valid sel (.write port data) = .ok (decodeKey (decodeKeyOf valid sel port data)) := rfl

theorem decodeKey_port_zero_selected (sel : BitVec 3) (data : Byte) :
    decodeKey (decodeKeyOf true sel 0 data) = decodeRegisterWrite sel data :=
  Except.ok.inj (decode_write true sel 0 data)

theorem decodeKey_port_zero_unselected (sel : BitVec 3) (data : Byte) :
    decodeKey (decodeKeyOf false sel 0 data) = .wrNovoice data :=
  Except.ok.inj (decode_write false sel 0 data)

theorem decodeKey_port_one (valid : Bool) (sel : BitVec 3) (data : Byte) :
    decodeKey (decodeKeyOf valid sel 1 data) = .selv data :=
  Except.ok.inj (decode_write valid sel 1 data)

theorem decodeKey_port_two (valid : Bool) (sel : BitVec 3) (data : Byte) :
    decodeKey (decodeKeyOf valid sel 2 data) = .selr data :=
  Except.ok.inj (decode_write valid sel 2 data)

theorem decodeKey_port_three (valid : Bool) (sel : BitVec 3) (data : Byte) :
    decodeKey (decodeKeyOf valid sel 3 data) = .rsvdP3 data :=
  Except.ok.inj (decode_write valid sel 3 data)

/-- `i` is an operation of the key's row: its data meets the row's condition, and its key, with the bits the row leaves
open taken from `valid` and `sel`, is `k`. -/
def HasKey (i : Instr) (valid : Bool) (sel : BitVec 3) (k : DecodeKey) : Prop :=
  i.wellFormed = true ∧ encodeKey valid sel i = some k

/-- Register 4: data bit 7 tells key-on from key-off. -/
theorem hasKey_decodeRegisterWrite_four (data : Byte) :
    HasKey (decodeRegisterWrite 4 data) true 4 (decodeKeyOf true 4 0 data) := by
  show HasKey (if data.getLsbD 7 then .wrKeyon data else .wrKeyoff data) _ _ _
  split
  · next hset => exact ⟨hset, rfl⟩
  · next hclear => exact ⟨by simpa [Instr.wellFormed] using hclear, rfl⟩

/-- Register 5: data bit 0 tells setting the level from ramping to it. -/
theorem hasKey_decodeRegisterWrite_five (data : Byte) :
    HasKey (decodeRegisterWrite 5 data) true 5 (decodeKeyOf true 5 0 data) := by
  show HasKey (if data.getLsbD 0 then .wrTlset data else .wrTlramp data) _ _ _
  split
  · next hset => exact ⟨hset, rfl⟩
  · next hclear => exact ⟨by simpa [Instr.wellFormed] using hclear, rfl⟩

/-- A register write's key has a voice selected, port 0 and the register it was decoded from. -/
theorem hasKey_decodeRegisterWrite (sel : BitVec 3) (data : Byte) :
    HasKey (decodeRegisterWrite sel data) true sel (decodeKeyOf true sel 0 data) := by
  have hsel : sel = 0 ∨ sel = 1 ∨ sel = 2 ∨ sel = 3 ∨ sel = 4 ∨ sel = 5 ∨ sel = 6 ∨ sel = 7 := by
    revert sel; decide
  rcases hsel with rfl | rfl | rfl | rfl | rfl | rfl | rfl | rfl
  exacts [⟨rfl, rfl⟩, ⟨rfl, rfl⟩, ⟨rfl, rfl⟩, ⟨rfl, rfl⟩, hasKey_decodeRegisterWrite_four data,
    hasKey_decodeRegisterWrite_five data, ⟨rfl, rfl⟩, ⟨rfl, rfl⟩]

/-- The key of the decoded operation is the key it was decoded from. -/
theorem hasKey_decodeKey (k : DecodeKey) : HasKey (decodeKey k) k.voiceValid k.selReg k := by
  rw [← decodeKeyOf_fields k]
  generalize k.voiceValid = valid, k.selReg = sel, k.port = port, k.data = data
  rw [voiceValid_decodeKeyOf, selReg_decodeKeyOf]
  have hport : port = 0 ∨ port = 1 ∨ port = 2 ∨ port = 3 := by revert port; decide
  rcases hport with rfl | rfl | rfl | rfl
  · cases valid with
    | false => rw [decodeKey_port_zero_unselected]; exact ⟨rfl, rfl⟩
    | true => rw [decodeKey_port_zero_selected]; exact hasKey_decodeRegisterWrite sel data
  · rw [decodeKey_port_one]; exact ⟨rfl, rfl⟩
  · rw [decodeKey_port_two]; exact ⟨rfl, rfl⟩
  · rw [decodeKey_port_three]; exact ⟨rfl, rfl⟩

/-! ### The row of a key -/

/-- The key of every operation is selected by the row of its mnemonic. -/
theorem keySelectsRow : ∀ i : Instr, Laws.KeySelectsRow.Statement i
  | .wrNovoice data => Laws.KeySelectsRow.wrNovoice data
  | .wrPan data => Laws.KeySelectsRow.wrPan data
  | .wrSample data => Laws.KeySelectsRow.wrSample data
  | .wrPitchl data => Laws.KeySelectsRow.wrPitchl data
  | .wrPitchh data => Laws.KeySelectsRow.wrPitchh data
  | .wrKeyoff data => Laws.KeySelectsRow.wrKeyoff data
  | .wrKeyon data => Laws.KeySelectsRow.wrKeyon data
  | .wrTlramp data => Laws.KeySelectsRow.wrTlramp data
  | .wrTlset data => Laws.KeySelectsRow.wrTlset data
  | .wrLfo data => Laws.KeySelectsRow.wrLfo data
  | .wrAm data => Laws.KeySelectsRow.wrAm data
  | .selv data => Laws.KeySelectsRow.selv data
  | .selr data => Laws.KeySelectsRow.selr data
  | .rsvdP3 data => Laws.KeySelectsRow.rsvdP3 data
  | .tick => Laws.KeySelectsRow.tick
  | .reset => Laws.KeySelectsRow.reset
  | .clock fIn => Laws.KeySelectsRow.clock fIn

/-- Two rows that agree on the bits both of them fix are the same row. -/
theorem opcodeRows_disjoint : ∀ r ∈ opcodeRows, ∀ r' ∈ opcodeRows,
    r.pattern &&& r'.mask = r'.pattern &&& r.mask → r = r' := by
  decide

/-- Two rows that match the same key are the same row. -/
theorem row_unique {k : DecodeKey} {r r' : OpcodeRow} (hr : r ∈ opcodeRows) (hr' : r' ∈ opcodeRows)
    (h : k &&& r.mask = r.pattern) (h' : k &&& r'.mask = r'.pattern) : r = r' := by
  apply opcodeRows_disjoint r hr r' hr'
  calc r.pattern &&& r'.mask = k &&& (r.mask &&& r'.mask) := by rw [← h, BitVec.and_assoc]
    _ = k &&& (r'.mask &&& r.mask) := by rw [BitVec.and_comm r.mask]
    _ = r'.pattern &&& r.mask := by rw [← h', BitVec.and_assoc]

/-- Every key is matched by the row of the operation it decodes to. -/
theorem exists_row_of_decodeKey (k : DecodeKey) :
    ∃ r ∈ opcodeRows, k &&& r.mask = r.pattern ∧ (decodeKey k).mnemonic = r.mnemonic := by
  obtain ⟨hwf, hkey⟩ := hasKey_decodeKey k
  obtain ⟨r, hr, hname, hsel⟩ := keySelectsRow (decodeKey k) hwf _ _ k hkey
  exact ⟨r, hr, eq_of_beq hsel, hname.symm⟩

/-! ### The step of a bus write -/

/-- A step whose next event is a bus write runs the operation of the key made by the state before it. -/
theorem step_write {s : State} {port : Port} {data : Byte} {rest : List Event}
    (h : s.pending = .write port data :: rest) :
    step s = exec (decodeKey (decodeKeyOf s.voiceValid s.selReg port data)) { s with pending := rest } := by
  have hnext : s.nextEvent = .write port data := by rw [State.nextEvent, h]
  have hpop : s.popEvent = { s with pending := rest } := by rw [State.popEvent, h, List.tail_cons]
  rw [step, hnext, hpop, decode_write_eq_decodeKey]

/-- Settles O3: the row is the decoded operation's own, no two rows share a key, and the key of a step is made of the
state's own selects and the bus word. -/
theorem everyKeyMatchesExactlyOneRow : Obligations.EveryKeyMatchesExactlyOneRow := by
  refine ⟨fun k => ?row, fun s port data rest h => ?step⟩
  case row =>
    obtain ⟨r, hr, hmatch, hname⟩ := exists_row_of_decodeKey k
    exact ⟨r, hr, hmatch, hname, fun r' hr' hmatch' => row_unique hr' hr hmatch' hmatch⟩
  case step =>
    exact ⟨decodeKeyOf s.voiceValid s.selReg port data, voiceValid_decodeKeyOf .., selReg_decodeKeyOf ..,
      port_decodeKeyOf .., data_decodeKeyOf .., step_write h⟩

/-! ### The octave and the pitch fraction -/

/-- The octave is the octave field less the bias, modulo 16, read as a signed 4-bit value (30_encoding.md R119). -/
theorem octave_eq (reg3 : Byte) :
    octave reg3 = if (reg3.toNat / 16 + 15) % 16 < 8 then (((reg3.toNat / 16 + 15) % 16 : Nat) : Int)
      else ((reg3.toNat / 16 + 15) % 16 : Nat) - 16 := by
  have hreg : reg3.toNat < 256 := reg3.isLt
  have hbiased : (reg3.extractLsb' 4 4 - BitVec.ofNat 4 octaveBias).toNat = (reg3.toNat / 16 + 15) % 16 := by
    simp only [octaveBias, BitVec.toNat_sub, BitVec.extractLsb'_toNat, BitVec.toNat_ofNat, Nat.shiftRight_eq_div_pow]
    omega
  rw [octave, BitVec.toInt_eq_toNat_cond, hbiased]
  split <;> split <;> omega

/-- The pitch fraction is register 3's low nibble above register 2's high six bits (30_encoding.md R119). -/
theorem pitchFraction_toNat (reg2 reg3 : Byte) :
    (pitchFraction reg2 reg3).toNat = reg3.toNat % 16 * 64 + reg2.toNat / 4 := by
  have hreg : reg2.toNat < 256 := reg2.isLt
  have hlow : (reg2.extractLsb' 2 6).toNat = reg2.toNat / 4 := by
    rw [BitVec.extractLsb'_toNat, Nat.shiftRight_eq_div_pow]
    omega
  have hhigh : (reg3.extractLsb' 0 4).toNat = reg3.toNat % 16 := by
    rw [BitVec.extractLsb'_toNat, Nat.shiftRight_zero]
  rw [pitchFraction, BitVec.toNat_append, hlow, hhigh, ← Nat.shiftLeft_add_eq_or_of_lt (by omega),
    Nat.shiftLeft_eq]

/-- Settles O16: the biased octave field is below 8 for fields 1 to 8 and at least 8 for field 0 and for fields 9
to 15. -/
theorem octaveAndPitchFraction : Obligations.OctaveAndPitchFraction := by
  intro reg2 reg3
  have hreg : reg3.toNat < 256 := reg3.isLt
  refine ⟨fun hfield => ?zero, fun hfield => ?oneToEight, fun hfield => ?nineUp, pitchFraction_toNat reg2 reg3⟩
  case zero => rw [octave_eq, if_neg (by omega)]; omega
  case oneToEight => rw [octave_eq, if_pos (by omega)]; omega
  case nineUp => rw [octave_eq, if_neg (by omega)]; omega

end Sys2Proof.Machine

/-! The proofs of the statements of 40_register_bank.md on the select ports, the reserved port, the port-0 write with no
voice selected, and the pan register. -/

namespace Sys2Proof.Machine

/-! ### The bus word -/

/-- A bus word is the port above the data byte (30_encoding.md R100). -/
theorem busWord_eq_or (port : Port) (data : Byte) :
    busWord port data = port.setWidth 10 <<< 8 ||| data.setWidth 10 := by
  rw [busWord, BitVec.append_def, BitVec.shiftLeftZeroExtend_eq, BitVec.setWidth'_eq]

/-! ### The fields of the select writes and of the pan write -/

/-- `c[2:0]` of the voice code (30_encoding.md R106). -/
theorem voiceCode_low_toNat (data : Byte) : ((voiceCode data).extractLsb' 0 3).toNat = data.toNat % 8 := by
  simp only [voiceCode, BitVec.extractLsb'_toNat, Nat.shiftRight_zero]
  omega

/-- `c[4:3]` of the voice code (30_encoding.md R106). -/
theorem voiceCode_high_toNat (data : Byte) : ((voiceCode data).extractLsb' 3 2).toNat = data.toNat % 32 / 8 := by
  simp only [voiceCode, BitVec.extractLsb'_toNat, Nat.shiftRight_eq_div_pow]
  omega

/-- The codes that select no voice (30_encoding.md R106). -/
theorem voiceTable_of_low_eq_seven {data : Byte} (h : data.toNat % 8 = 7) : voiceTable (voiceCode data) = none := by
  have hlow : (voiceCode data).extractLsb' 0 3 = 7 := BitVec.eq_of_toNat_eq ((voiceCode_low_toNat data).trans h)
  simp only [voiceTable, if_pos hlow]

/-- Every other code selects a voice of the table: the largest is `7 * 3 + 6 = 27` (30_encoding.md R106). -/
theorem voiceTable_of_low_ne_seven {data : Byte} (h : data.toNat % 8 ≠ 7) :
    ∃ v : VoiceId, v.val = 7 * (data.toNat % 32 / 8) + data.toNat % 8 ∧ voiceTable (voiceCode data) = some v := by
  have hlow : (voiceCode data).extractLsb' 0 3 ≠ 7 := fun e =>
    h ((voiceCode_low_toNat data).symm.trans (congrArg BitVec.toNat e))
  have hlt : 7 * (data.toNat % 32 / 8) + data.toNat % 8 < voiceCount := by rw [voiceCount]; omega
  refine ⟨⟨_, hlt⟩, rfl, ?_⟩
  simp only [voiceTable, if_neg hlow, voiceCode_high_toNat, voiceCode_low_toNat, dif_pos hlt]

/-- The clamped register number fits in three bits (30_encoding.md R107). -/
theorem registerSelect_toNat (data : Byte) : (registerSelect data).toNat = min data.toNat 7 := by
  rw [registerSelect, BitVec.toNat_ofNat]
  omega

/-- The pan code is the byte's high nibble (30_encoding.md R110). -/
theorem panCode_toNat (data : Byte) : (panCode data).toNat = data.toNat / 16 := by
  have hdata : data.toNat < 256 := data.isLt
  rw [panCode, BitVec.extractLsb'_toNat, Nat.shiftRight_eq_div_pow]
  omega

/-! ### One meaning each for `exec` -/

theorem exec_selv (data : Byte) (s : State) :
    exec (.selv data) s = .next { s with selVoice := voiceTable (voiceCode data) } := rfl

theorem exec_selr (data : Byte) (s : State) :
    exec (.selr data) s = .next { s with selReg := registerSelect data } := rfl

theorem exec_rsvdP3 (data : Byte) (s : State) : exec (.rsvdP3 data) s = .next s := rfl

theorem exec_wrNovoice (data : Byte) (s : State) : exec (.wrNovoice data) s = .next s := rfl

theorem exec_wrPan_selected {s : State} {v : VoiceId} (data : Byte) (h : s.selVoice = some v) :
    exec (.wrPan data) s = .next (s.updateVoice v fun x => x.writePan data) :=
  congrArg Host.Outcome.next (s.onSelected_some v _ h)

/-! ### The steps of the select ports and of port 3 -/

theorem step_write_port_one {s : State} {data : Byte} {rest : List Event} (h : s.pending = .write 1 data :: rest) :
    step s = .next { s with selVoice := voiceTable (voiceCode data), pending := rest } := by
  rw [step_write h, decodeKey_port_one, exec_selv]

theorem step_write_port_two {s : State} {data : Byte} {rest : List Event} (h : s.pending = .write 2 data :: rest) :
    step s = .next { s with selReg := registerSelect data, pending := rest } := by
  rw [step_write h, decodeKey_port_two, exec_selr]

theorem step_write_port_three {s : State} {data : Byte} {rest : List Event} (h : s.pending = .write 3 data :: rest) :
    step s = .next { s with pending := rest } := by
  rw [step_write h, decodeKey_port_three, exec_rsvdP3]

/-- With no voice selected a port-0 write is taken off the list and changes nothing (40_register_bank.md R144). -/
theorem step_write_port_zero_unselected {s : State} {data : Byte} {rest : List Event} (hsel : s.selVoice = none)
    (h : s.pending = .write 0 data :: rest) : step s = .next { s with pending := rest } := by
  have hvalid : s.voiceValid = false := by rw [State.voiceValid, hsel, Option.isSome_none]
  rw [step_write h, hvalid, decodeKey_port_zero_unselected, exec_wrNovoice]

/-! ### The select ports and the reserved port -/

/-- Settles O8: the two fields of the code give the voice number, and code field 7 gives none. -/
theorem selvSelectsTheTableVoice : Obligations.SelvSelectsTheTableVoice := by
  refine ⟨fun data => busWord_eq_or 1 data, fun valid sel data => decode_write valid sel 1 data,
    fun data s => ⟨_, exec_selv data s, rfl, voiceTable_of_low_eq_seven, voiceTable_of_low_ne_seven⟩,
    fun s => ?code0x29⟩
  case code0x29 =>
    have hvoice : voiceTable (voiceCode 0x29) = some 8 := by decide
    rw [exec_selv, hvoice]

/-- Settles O9: the clamped number is the new register select. -/
theorem selrClampsTheRegister : Obligations.SelrClampsTheRegister := by
  refine ⟨fun data => busWord_eq_or 2 data, fun valid sel data => decode_write valid sel 2 data,
    fun data s => ⟨_, exec_selr data s, rfl, registerSelect_toNat data⟩, fun s => ?byte0x09⟩
  case byte0x09 =>
    have hreg : registerSelect 0x09 = 7 := by decide
    rw [exec_selr, hreg]

/-- Settles O10: the operation of port 3 answers the state it was given. -/
theorem reservedPortChangesNothing : Obligations.ReservedPortChangesNothing :=
  ⟨fun data => busWord_eq_or 3 data, fun valid sel data => decode_write valid sel 3 data, exec_rsvdP3,
    fun _ _ h => step_write_port_three h⟩

/-! ### Runs with no voice selected -/

/-- A run whose first step answers a state goes on from that state. -/
theorem runSteps_succ {s t : State} (n : Nat) (h : step s = .next t) : runSteps (n + 1) s = runSteps n t := by
  rw [runSteps, h]

/-- A run of port-0 writes with no voice selected takes them off the list and changes nothing else
(40_register_bank.md R144). -/
theorem runSteps_writes_unselected (ds : List Byte) {s : State} {rest : List Event} (hsel : s.selVoice = none)
    (h : s.pending = ds.map (Event.write 0) ++ rest) : runSteps ds.length s = .next { s with pending := rest } := by
  induction ds generalizing s with
  | nil =>
    have hstate : s = { s with pending := rest } := by
      rw [List.map_nil, List.nil_append] at h
      rw [← h]
    exact congrArg Host.Outcome.next hstate
  | cons d ds ih =>
    have hstep := step_write_port_zero_unselected hsel h
    calc runSteps (ds.length + 1) s
        = runSteps ds.length { s with pending := ds.map (Event.write 0) ++ rest } := runSteps_succ _ hstep
      _ = .next { s with pending := rest } := ih hsel rfl

/-- The event an operation was decoded from is the event it encodes to. -/
theorem encode_of_decode {valid : Bool} {sel : BitVec 3} {e : Event} {i : Instr} (h : decode valid sel e = .ok i) :
    encode i = e := by
  cases e with
  | write port data =>
    cases h
    obtain ⟨-, hkey⟩ := hasKey_decodeKey (decodeKeyOf valid sel port data)
    unfold encodeKey at hkey
    split at hkey
    next p d henc =>
      have hkeys := Option.some.inj hkey
      have hport : p = port := by simpa only [port_decodeKeyOf] using congrArg DecodeKey.port hkeys
      have hdata : d = data := by simpa only [data_decodeKeyOf] using congrArg DecodeKey.data hkeys
      rw [henc, hport, hdata]
    all_goals cases hkey
  | tick => cases h; rfl
  | reset => cases h; rfl
  | clock f =>
    rw [decode] at h
    split at h <;> cases h
    rfl

/-- Only a `SELV` or a `RESET` selects a voice (40_register_bank.md R144). -/
theorem step_keeps_unselected {s t : State} (hsel : s.selVoice = none) (hselv : ∀ d, s.nextEvent ≠ .write 1 d)
    (hreset : s.nextEvent ≠ .reset) (h : step s = .next t) : t.selVoice = none := by
  obtain ⟨i, hdecode, hexec⟩ := step_next h
  have hevent := encode_of_decode hdecode
  obtain ⟨-, -, -, hkept | ⟨d, rfl, -⟩ | ⟨rfl, -⟩, -⟩ := exec_outside hexec
  · exact hkept.trans hsel
  · exact absurd hevent.symm (hselv d)
  · exact absurd hevent.symm hreset

/-- Settles O11: the run is an induction on its writes; code 0x07 selects no voice, so the key-on after it is one of
those writes. -/
theorem noVoiceWritesChangeNothing : Obligations.NoVoiceWritesChangeNothing := by
  refine ⟨fun sel data => decode_write false sel 0 data, exec_wrNovoice,
    fun ds s rest hsel h => runSteps_writes_unselected ds hsel h,
    fun s t hsel hselv hreset h => step_keeps_unselected hsel hselv hreset h, fun s rest h => ?code0x07⟩
  case code0x07 =>
    have hvoice : voiceTable (voiceCode 0x07) = none := by decide
    have hreg : registerSelect 4 = 4 := by decide
    rw [runSteps_succ 2 (step_write_port_one h), hvoice, runSteps_succ 1 (step_write_port_two rfl), hreg,
      runSteps_succ 0 (step_write_port_zero_unselected rfl rfl), runSteps]

/-! ### The pan register -/

/-- An update of one voice changes nothing but that voice (20_memory.md R83). -/
theorem onlyVoiceDiffers_updateVoice (s : State) (v : VoiceId) (f : Voice → Voice) :
    OnlyVoiceDiffers v s (s.updateVoice v f) :=
  ⟨⟨rfl, rfl, rfl, rfl, fun _ => rfl, rfl, rfl⟩, fun _ hne => s.updateVoice_voice_other v f hne⟩

/-- The pan code of a pan key is the one it was made of (44_mixer.md R295). -/
theorem keyPan_panKey (pan : BitVec 4) (tlK : BitVec (7 + Config.tlShift)) : keyPan (panKey pan tlK) = pan := by
  apply BitVec.eq_of_getLsbD_eq
  intro i hi
  simp only [keyPan, panKey, BitVec.getLsbD_extractLsb', BitVec.getLsbD_append]
  simp [hi]

/-- A zero pan gain adds nothing (44_mixer.md R297). -/
theorem panProduct_zero (s : Int) : panProduct 0 s = 0 := by simp [panProduct, floorShift]

/-- A tick keeps the pan code (10_state.md R37). -/
theorem Voice.tickState_pan (T : Config.Tables) (m : Memory) (v : Voice) : (v.tickState T m).pan = v.pan := by
  rw [Voice.tickState_eq]

/-- A voice with pan code 8 adds nothing to either channel, whether it plays or not (00_scope.md R12, 44_mixer.md
R297, R305). -/
theorem Voice.tick_pan_eight {T : Config.Tables} (hT : TablesOk T) (m : Memory) {v : Voice} (h : v.pan = 8) :
    (v.tick T m).left = 0 ∧ (v.tick T m).right = 0 := by
  cases hplay : v.playing with
  | false => rw [Voice.tick_not_playing _ _ _ hplay]; exact ⟨rfl, rfl⟩
  | true =>
    have hkey (tlK) : keyPan (panKey (v.tickState T m).pan tlK) = 8 := by
      rw [keyPan_panKey, Voice.tickState_pan, h]
    obtain ⟨hleft, hright⟩ := hT.panSilent _ (hkey (keyLevel T.tlKeySample v.tl (v.tickState T m).tl))
    rw [Voice.tick_playing _ _ _ hplay]
    simp only [Voice.tickPlaying, hleft, hright, panProduct_zero, and_self]

/-- Settles O14: the selected voice becomes `writePan` of itself, and pan code 8 has zero gain in both tables. -/
theorem wrPanSetsThePanCode : Obligations.WrPanSetsThePanCode := by
  refine ⟨fun data => decode_write true 0 0 data, fun s v data hsel => ?write, fun s v hsel => ?byte0x8F⟩
  case write =>
    refine ⟨_, exec_wrPan_selected data hsel, onlyVoiceDiffers_updateVoice s v _, ?_⟩
    rw [State.updateVoice_voice_same, Voice.writePan_eq]
    refine ⟨⟨panCode data, panCode_toNat data, rfl⟩, fun hpan => Voice.tick_pan_eight tables_ok _ ?_⟩
    exact BitVec.eq_of_toNat_eq ((panCode_toNat data).trans hpan)
  case byte0x8F =>
    have hpan : panCode 0x8F = 8 := by decide
    refine ⟨_, exec_wrPan_selected 0x8F hsel, ?_⟩
    rw [State.updateVoice_voice_same, Voice.writePan_eq]
    exact hpan

end Sys2Proof.Machine

/-! The proofs of the statements of 41_envelope.md: the rates, one tick of the envelope in each of its states, its range,
and its transitions. -/

namespace Sys2Proof.Machine

/-! ### Rates -/

theorem clamp_of_lt {lo hi n : Int} (hle : lo ≤ hi) (h : n < lo) : clamp lo hi n = lo := by
  rw [clamp, max_eq_left h.le, min_eq_right hle]

theorem clamp_of_gt {lo hi n : Int} (hle : lo ≤ hi) (h : hi < n) : clamp lo hi n = hi := by
  rw [clamp, max_eq_right (hle.trans h.le), min_eq_left h.le]

theorem clamp_of_mem {lo hi n : Int} (hlo : lo ≤ n) (hhi : n ≤ hi) : clamp lo hi n = n := by
  rw [clamp, max_eq_right hlo, min_eq_right hhi]

theorem getRate_code_zero (t : BitVec 6 → Nat) (kr : Int) : getRate t kr 0 = t 0 := rfl

theorem getRate_code_fifteen (t : BitVec 6 → Nat) (kr : Int) : getRate t kr 15 = t 63 := rfl

theorem getRate_code_between (t : BitVec 6 → Nat) (kr : Int) {code : BitVec 4} (h0 : code.toNat ≠ 0)
    (h15 : code.toNat ≠ 15) : getRate t kr code = t (BitVec.ofInt 6 (clamp 0 63 (4 * (code.toNat : Int) + kr))) := by
  have hne0 : code ≠ 0 := fun h => h0 (congrArg BitVec.toNat h)
  have hne15 : code ≠ 15 := fun h => h15 (congrArg BitVec.toNat h)
  rw [getRate, if_neg hne0, if_neg hne15]

/-- Settles O26: codes 0 and 15 name the table's ends; between them the index is below, above or inside the table. -/
theorem getRateClampsTheIndex : Obligations.GetRateClampsTheIndex := by
  intro t kr code
  refine ⟨fun h => ?zero, fun h => ?fifteen, fun h0 h15 hlow => ?below, fun h0 h15 hhigh => ?above,
    fun i h0 h15 hi => ?inside⟩
  case zero => rw [show code = 0 from BitVec.eq_of_toNat_eq h, getRate_code_zero]
  case fifteen => rw [show code = 15 from BitVec.eq_of_toNat_eq h, getRate_code_fifteen]
  case below => rw [getRate_code_between t kr h0 h15, clamp_of_lt (by decide) hlow]; rfl
  case above => rw [getRate_code_between t kr h0 h15, clamp_of_gt (by decide) hhigh]; rfl
  case inside =>
    have hlt : i.toNat < 64 := i.isLt
    rw [getRate_code_between t kr h0 h15, hi, clamp_of_mem (by omega) (by omega), BitVec.ofInt_natCast,
      BitVec.ofNat_toNat, BitVec.setWidth_eq]

/-- `regs[3][3]` as a number (30_encoding.md R113). -/
theorem keyRateBit_eq (reg3 : Byte) : keyRateBit reg3 = reg3.toNat / 8 % 2 := by
  rw [keyRateBit, BitVec.extractLsb'_toNat, Nat.shiftRight_eq_div_pow]

theorem octave_range (reg3 : Byte) : -8 ≤ octave reg3 ∧ octave reg3 ≤ 7 := by
  rw [octave_eq]
  split <;> omega

theorem keyRate_scale_fifteen (reg3 : Byte) : keyRate 15 reg3 = 0 := rfl

theorem keyRate_scale_other {krs : BitVec 4} (reg3 : Byte) (h : krs.toNat ≠ 15) :
    keyRate krs reg3 = (octave reg3 + krs.toNat) * 2 + (reg3.toNat / 8 % 2 : Nat) := by
  have hne : krs ≠ 15 := fun e => h (congrArg BitVec.toNat e)
  rw [keyRate, if_neg hne, keyRateBit_eq]

/-- The key rate lies between octave -8 at scale 0 and octave 7 at scale 14 with the pitch bit set (41_envelope.md
R193). -/
theorem keyRate_range (krs : BitVec 4) (reg3 : Byte) : -16 ≤ keyRate krs reg3 ∧ keyRate krs reg3 ≤ 43 := by
  by_cases h : krs.toNat = 15
  · rw [show krs = 15 from BitVec.eq_of_toNat_eq h, keyRate_scale_fifteen]
    decide
  · obtain ⟨hlow, hhigh⟩ := octave_range reg3
    have hkrs : krs.toNat < 16 := krs.isLt
    rw [keyRate_scale_other reg3 h]
    omega

/-- Settles O27: the formula is the definition with its bit fields read as numbers, and its range follows from the
octave's. -/
theorem keyRateFormula : Obligations.KeyRateFormula := by
  intro krs reg3
  obtain ⟨hlow, hhigh⟩ := keyRate_range krs reg3
  obtain ⟨hoctLow, hoctHigh⟩ := octave_range reg3
  refine ⟨fun h => ?fifteen, keyRate_scale_other reg3, hlow, hhigh, ?octave, hoctLow, hoctHigh⟩
  case fifteen => rw [show krs = 15 from BitVec.eq_of_toNat_eq h, keyRate_scale_fifteen]
  case octave =>
    rw [octave_eq]
    split <;> omega

/-! ### Volumes -/

/-- A volume that fits in the envelope's 26 bits is stored as it is (10_state.md R46). -/
theorem storeVol_natCast_toNat {n : Nat} (h : n < 2 ^ 26) : (storeVol n).toNat = n := by
  rw [storeVol, BitVec.ofInt_natCast, BitVec.toNat_ofNat]
  exact Nat.mod_eq_of_lt h

/-- A fall that stops at 0 is the subtraction of naturals (00_scope.md R17). -/
theorem floor0_natCast_sub (a b : Nat) : floor0 ((a : Int) - b) = ((a - b : Nat) : Int) := by
  rw [floor0]
  omega

/-- A volume that falls by a rate stays within its bits (41_envelope.md R196 to R198). -/
theorem storeVol_fall_toNat (vol : BitVec (Config.egIntBits + Config.egShift)) (rate : Nat) :
    (storeVol (floor0 ((vol.toNat : Int) - rate))).toNat = vol.toNat - rate := by
  rw [floor0_natCast_sub, storeVol_natCast_toNat (Nat.lt_of_le_of_lt (Nat.sub_le ..) vol.isLt)]

/-- The integer volume is the volume without its fraction bits (41_envelope.md R200). -/
theorem volInt_toNat (vol : BitVec (Config.egIntBits + Config.egShift)) : (volInt vol).toNat = vol.toNat / 65536 := by
  have hint : vol.toNat / 2 ^ 16 < 2 ^ 10 := Nat.div_lt_of_lt_mul vol.isLt
  rw [volInt, BitVec.extractLsb'_toNat, Nat.shiftRight_eq_div_pow]
  exact Nat.mod_eq_of_lt hint

/-! ### One tick in each state -/

section
variable (e : Envelope)

/-- A tick changes the state and the volume of an envelope, and no rate and no threshold (41_envelope.md R199). -/
theorem Envelope.tick_frame : e.tick = { e with vol := e.tick.vol, state := e.tick.state } := by
  cases hstate : e.state with
  | attack =>
    simp only [Envelope.tick, hstate, Envelope.attackTick]
    split <;> rfl
  | decay1 => simp only [Envelope.tick, hstate, Envelope.decay1Tick]
  | decay2 => simp only [Envelope.tick, hstate, Envelope.decay2Tick]
  | release => simp only [Envelope.tick, hstate, Envelope.releaseTick]

variable {e}

/-- ATTACK: the volume grows by the attack rate up to the ceiling (41_envelope.md R195). -/
theorem Envelope.tick_vol_of_attack (h : e.state = .attack) :
    e.tick.vol.toNat = min (e.vol.toNat + e.ar) (1023 * 65536) := by
  simp only [Envelope.tick, h, Envelope.attackTick, show egCeiling = 1023 * 65536 from rfl]
  split
  · next hceil => rw [storeVol_natCast_toNat (by decide), min_eq_right hceil]
  · next hbelow =>
    rw [storeVol_natCast_toNat (by omega)]
    omega

/-- ATTACK ends at the ceiling, in DECAY2 when the decay-1 rate is at least DECAY1_SKIP (41_envelope.md R195). -/
theorem Envelope.tick_state_of_attack (h : e.state = .attack) : e.tick.state =
    if 1023 * 65536 ≤ e.vol.toNat + e.ar then if 1024 * 65536 ≤ e.d1r then .decay2 else .decay1 else .attack := by
  simp only [Envelope.tick, h, Envelope.attackTick]
  split
  · next hceil => exact (if_pos hceil).symm
  · next hbelow => exact (if_neg hbelow).symm

/-- DECAY1: the volume falls by the decay-1 rate (41_envelope.md R196). -/
theorem Envelope.tick_vol_of_decay1 (h : e.state = .decay1) : e.tick.vol.toNat = e.vol.toNat - e.d1r := by
  simp only [Envelope.tick, h, Envelope.decay1Tick, storeVol_fall_toNat]

/-- DECAY1 ends when the new integer volume is at or below the threshold (41_envelope.md R196). -/
theorem Envelope.tick_state_of_decay1 (h : e.state = .decay1) :
    e.tick.state = if e.tick.vol.toNat / 65536 ≤ e.thr.toNat * 64 then .decay2 else .decay1 := by
  simp only [Envelope.tick, h, Envelope.decay1Tick, volInt_toNat, thresholdVolume]
  rfl

/-- DECAY2: the volume falls by the decay-2 rate (41_envelope.md R197). -/
theorem Envelope.tick_vol_of_decay2 (h : e.state = .decay2) : e.tick.vol.toNat = e.vol.toNat - e.d2r := by
  simp only [Envelope.tick, h, Envelope.decay2Tick, storeVol_fall_toNat]

/-- No tick ends DECAY2 (41_envelope.md R197). -/
theorem Envelope.tick_state_of_decay2 (h : e.state = .decay2) : e.tick.state = .decay2 := by
  simp only [Envelope.tick, h, Envelope.decay2Tick]

/-- RELEASE: the volume falls by the release rate (41_envelope.md R198). -/
theorem Envelope.tick_vol_of_release (h : e.state = .release) : e.tick.vol.toNat = e.vol.toNat - e.rr := by
  simp only [Envelope.tick, h, Envelope.releaseTick, storeVol_fall_toNat]

/-- No tick ends RELEASE: it ends with the voice (41_envelope.md R198). -/
theorem Envelope.tick_state_of_release (h : e.state = .release) : e.tick.state = .release := by
  simp only [Envelope.tick, h, Envelope.releaseTick]

/-- A release comes to 0 when its rate is at least the volume (41_envelope.md R198). -/
theorem Envelope.tick_vol_eq_zero_iff_of_release (h : e.state = .release) : e.tick.vol = 0 ↔ e.vol.toNat ≤ e.rr := by
  rw [← BitVec.toNat_inj, Envelope.tick_vol_of_release h]
  exact Nat.sub_eq_zero_iff_le

/-- ATTACK that comes to the ceiling goes on to one of the two decays (41_envelope.md R195). -/
theorem Envelope.tick_state_of_attack_at_ceiling (h : e.state = .attack) (hceil : e.tick.vol.toNat = 1023 * 65536) :
    e.tick.state = if 1024 * 65536 ≤ e.d1r then .decay2 else .decay1 := by
  rw [Envelope.tick_vol_of_attack h] at hceil
  rw [Envelope.tick_state_of_attack h, if_pos (by omega)]

/-- Out of ATTACK a tick does not raise the volume (41_envelope.md R201). -/
theorem Envelope.tick_vol_le_of_ne_attack (h : e.state ≠ .attack) : e.tick.vol.toNat ≤ e.vol.toNat := by
  cases hstate : e.state with
  | attack => exact absurd hstate h
  | decay1 => rw [Envelope.tick_vol_of_decay1 hstate]; exact Nat.sub_le ..
  | decay2 => rw [Envelope.tick_vol_of_decay2 hstate]; exact Nat.sub_le ..
  | release => rw [Envelope.tick_vol_of_release hstate]; exact Nat.sub_le ..

end

/-! ### The tick of the machine -/

/-- `TICK` never stops (44_mixer.md R310). -/
theorem exec_tick (s : State) : exec .tick s = .next (s.tick tables) := rfl

/-- A playing voice's envelope after a tick of the machine (44_mixer.md R310, step 9). -/
theorem State.tick_voice_eg {T : Config.Tables} {s : State} {v : VoiceId} (h : (s.voice v).playing = true) :
    ((s.tick T).voice v).eg = (s.voice v).eg.tick := by
  rw [State.tick_voice, Voice.tick_voice _ _ _ h, Voice.tickState_eq]

/-- A tick stops a playing voice exactly when its release comes to 0 (41_envelope.md R198). -/
theorem State.tick_voice_playing_iff {T : Config.Tables} {s : State} {v : VoiceId} (h : (s.voice v).playing = true) :
    ((s.tick T).voice v).playing = true ↔ ¬((s.voice v).eg.state = .release ∧ (s.voice v).eg.tick.vol = 0) := by
  rw [State.tick_voice, Voice.tick_voice _ _ _ h, Voice.tickState_eq]
  simp only [h, Bool.if_false_left, Bool.and_true, Bool.not_eq_true', decide_eq_false_iff_not]

/-- A voice that is not in RELEASE goes on playing (41_envelope.md R195 to R197). -/
theorem State.tick_voice_playing_of_ne_release {T : Config.Tables} {s : State} {v : VoiceId}
    (h : (s.voice v).playing = true) (hstate : (s.voice v).eg.state ≠ .release) :
    ((s.tick T).voice v).playing = true :=
  (State.tick_voice_playing_iff h).mpr fun hstop => hstate hstop.left

/-- A voice's product with the gain when its volume is 0 uses entry 0 (41_envelope.md R198, R200). -/
theorem gained_of_vol_zero (T : Config.Tables) {w : Voice} (sample : Int) (h : w.eg.vol = 0) :
    gained T w sample = floorShift (w.tremolo T sample * T.expGain 0) 10 := by
  have hindex : volInt 0 = 0 := by decide
  rw [gained, Envelope.gain, h, hindex, gainBits]

/-- Settles O36: the sum is at the ceiling or below it, and at the ceiling the decay-1 rate is on one side of the skip. -/
theorem tickInAttack : Obligations.TickInAttack := by
  intro s v hplay hattack
  refine ⟨_, exec_tick s, State.tick_voice_playing_of_ne_release hplay (by simp [hattack]), ?_⟩
  rw [State.tick_voice_eg hplay]
  generalize (s.voice v).eg = e at hattack
  refine ⟨e.tick_frame, fun hceil => ⟨?ceiling, fun hskip => ?skip, fun hno => ?noSkip⟩, fun hbelow => ⟨?grown, ?stays⟩⟩
  case ceiling => rw [Envelope.tick_vol_of_attack hattack, min_eq_right hceil]
  case skip => rw [Envelope.tick_state_of_attack hattack, if_pos hceil, if_pos hskip]
  case noSkip => rw [Envelope.tick_state_of_attack hattack, if_pos hceil, if_neg hno.not_ge]
  case grown => rw [Envelope.tick_vol_of_attack hattack, min_eq_left hbelow.le]
  case stays => rw [Envelope.tick_state_of_attack hattack, if_neg hbelow.not_ge]

/-- Settles O37: each decay's volume is its rule, and only DECAY1 tests it, after the fall. -/
theorem tickInDecay : Obligations.TickInDecay := by
  intro s v hplay
  refine ⟨_, exec_tick s, fun hdecay1 => ?decay1, fun hdecay2 => ?decay2⟩
  case decay1 =>
    refine ⟨State.tick_voice_playing_of_ne_release hplay (by simp [hdecay1]), ?_⟩
    rw [State.tick_voice_eg hplay]
    refine ⟨Envelope.tick_frame _, Envelope.tick_vol_of_decay1 hdecay1, fun hat => ?atThreshold, fun habove => ?above⟩
    case atThreshold => rw [Envelope.tick_state_of_decay1 hdecay1, if_pos hat]
    case above => rw [Envelope.tick_state_of_decay1 hdecay1, if_neg habove.not_ge]
  case decay2 =>
    refine ⟨State.tick_voice_playing_of_ne_release hplay (by simp [hdecay2]), ?_⟩
    rw [State.tick_voice_eg hplay]
    have hframe := (s.voice v).eg.tick_frame
    rw [Envelope.tick_state_of_decay2 hdecay2, ← hdecay2] at hframe
    exact ⟨hframe, Envelope.tick_vol_of_decay2 hdecay2⟩

/-- Settles O38: the voice stops when the fall comes to 0, and volume 0 reads gain entry 0. -/
theorem tickInRelease : Obligations.TickInRelease := by
  intro s v hplay hrelease
  have heg : ((s.tick tables).voice v).eg = (s.voice v).eg.tick := State.tick_voice_eg hplay
  have hzero := Envelope.tick_vol_eq_zero_iff_of_release hrelease
  refine ⟨_, exec_tick s, ?frame, ?volume, ?playing, fun hstop => gained_of_vol_zero _ _ ?gain⟩
  case frame =>
    have hframe := (s.voice v).eg.tick_frame
    rw [Envelope.tick_state_of_release hrelease, ← hrelease] at hframe
    rw [heg]
    exact hframe
  case volume => rw [heg, Envelope.tick_vol_of_release hrelease]
  case playing => rw [State.tick_voice_playing_iff hplay, hzero, and_iff_right hrelease, Nat.not_le]
  case gain => rw [heg, hzero]; exact hstop

/-- Settles O48: ATTACK is bounded by the ceiling, and the other states only fall. -/
theorem envelopeIsMonotone : Obligations.EnvelopeIsMonotone := by
  intro e hrange
  have hbound : e.tick.vol.toNat ≤ 1023 * 65536 := by
    by_cases hstate : e.state = .attack
    · rw [Envelope.tick_vol_of_attack hstate]
      exact min_le_right ..
    · exact (Envelope.tick_vol_le_of_ne_attack hstate).trans hrange
  refine ⟨fun hattack => ?attack, Envelope.tick_vol_le_of_ne_attack, hbound, volInt_toNat _, by omega⟩
  case attack =>
    rw [Envelope.tick_vol_of_attack hattack]
    exact le_min (Nat.le_add_right ..) hrange

/-! ### Transitions -/

/-- The transitions a tick makes: ATTACK ends at the ceiling, and DECAY1 ends at the threshold (41_envelope.md R190). -/
theorem Envelope.tick_transition {e : Envelope} (h : e.tick.state ≠ e.state) :
    (e.state = .attack ∧ e.tick.vol.toNat = 1023 * 65536 ∧
      ((e.tick.state = .decay1 ∧ e.d1r < 1024 * 65536) ∨ (e.tick.state = .decay2 ∧ 1024 * 65536 ≤ e.d1r))) ∨
    (e.state = .decay1 ∧ e.tick.state = .decay2 ∧ e.tick.vol.toNat / 65536 ≤ e.thr.toNat * 64) := by
  cases hstate : e.state with
  | attack =>
    by_cases hceil : 1023 * 65536 ≤ e.vol.toNat + e.ar
    · have hvol : e.tick.vol.toNat = 1023 * 65536 := by rw [Envelope.tick_vol_of_attack hstate, min_eq_right hceil]
      have hnext := Envelope.tick_state_of_attack_at_ceiling hstate hvol
      refine .inl ⟨rfl, hvol, ?_⟩
      by_cases hskip : 1024 * 65536 ≤ e.d1r
      · exact .inr ⟨hnext.trans (if_pos hskip), hskip⟩
      · exact .inl ⟨hnext.trans (if_neg hskip), Nat.not_le.mp hskip⟩
    · exact absurd (by rw [Envelope.tick_state_of_attack hstate, if_neg hceil, hstate]) h
  | decay1 =>
    have hnext := Envelope.tick_state_of_decay1 hstate
    by_cases hthr : e.tick.vol.toNat / 65536 ≤ e.thr.toNat * 64
    · exact .inr ⟨rfl, hnext.trans (if_pos hthr), hthr⟩
    · exact absurd (by rw [hnext, if_neg hthr, hstate]) h
  | decay2 => exact absurd (by rw [Envelope.tick_state_of_decay2 hstate, hstate]) h
  | release => exact absurd (by rw [Envelope.tick_state_of_release hstate, hstate]) h

/-- A register-1 write puts a playing voice's envelope in ATTACK and keeps another voice's state (40_register_bank.md
R152). -/
theorem Voice.writeSample_eg_state (T : Config.Tables) (m : Memory) (d : Byte) (x : Voice) :
    (x.writeSample T m d).eg.state = if x.playing then .attack else x.eg.state := by
  rw [Voice.writeSample_eq]
  split
  · rw [Voice.retrigger_eq]
  · rw [Voice.sampleLoaded, Voice.egRecalc_eq, Voice.writeLfoReg_eq, Voice.writeLfoReg_eq, Voice.storeReg_eg]

/-- A key-on puts the envelope in ATTACK (40_register_bank.md R162). -/
theorem Voice.writeKeyon_eg_state (T : Config.Tables) (d : Byte) (x : Voice) :
    (x.writeKeyon T d).eg.state = .attack := rfl

/-- A key-off puts the envelope in RELEASE, but for the instant-release code (40_register_bank.md R163). -/
theorem Voice.writeKeyoff_eg_state (d : Byte) (x : Voice) :
    (x.writeKeyoff d).eg.state = if x.smp.rr = instantRelease then x.eg.state else .release := by
  rw [Voice.writeKeyoff_eq, apply_ite Envelope.state]

/-- A write to register 6 or 7 keeps the envelope (40_register_bank.md R168, R169). -/
theorem Voice.writeLfoReg_eg (T : Config.Tables) (r : Fin 8) (d : Byte) (x : Voice) :
    (x.writeLfoReg T r d).eg = x.eg := by
  rw [Voice.writeLfoReg_eq]

/-- The instant-release code is 15 (00_scope.md R11). -/
theorem ne_instantRelease_iff (code : BitVec 4) : code ≠ instantRelease ↔ code.toNat ≠ 15 :=
  not_congr BitVec.toNat_inj.symm

/-- The transitions a register operation makes: to ATTACK at a key-on and at a sample write to a playing voice, and to
RELEASE at a key-off without the instant-release code (41_envelope.md R190). -/
theorem RegisterOp.eg_transition {m : Memory} {R : Rat} {i : Instr} {x y : Voice} (h : RegisterOp m R i x y)
    (hne : x.eg.state ≠ y.eg.state) :
    (y.eg.state = .attack ∧ ((∃ d, i = .wrKeyon d) ∨ ((∃ d, i = .wrSample d) ∧ x.playing = true))) ∨
    (y.eg.state = .release ∧ (∃ d, i = .wrKeyoff d) ∧ x.smp.rr.toNat ≠ 15) := by
  rcases h with ⟨d, rfl, rfl⟩ | ⟨d, rfl, rfl⟩ | ⟨d, rfl, rfl⟩ | ⟨d, rfl, rfl⟩ | ⟨d, rfl, rfl⟩ | ⟨d, rfl, rfl⟩ |
    ⟨d, rfl, rfl⟩ | ⟨d, rfl, rfl⟩ | ⟨d, rfl, rfl⟩ | ⟨d, rfl, rfl⟩
  · exact absurd rfl hne
  · rw [Voice.writeSample_eg_state] at hne ⊢
    by_cases hplay : x.playing = true
    · exact .inl ⟨if_pos hplay, .inr ⟨⟨d, rfl⟩, hplay⟩⟩
    · exact absurd (if_neg hplay).symm hne
  · exact absurd rfl hne
  · exact absurd rfl hne
  · rw [Voice.writeKeyoff_eg_state] at hne ⊢
    by_cases hinstant : x.smp.rr = instantRelease
    · exact absurd (if_pos hinstant).symm hne
    · exact .inr ⟨if_neg hinstant, ⟨d, rfl⟩, (ne_instantRelease_iff _).mp hinstant⟩
  · exact .inl ⟨x.writeKeyon_eg_state tables d, .inl ⟨d, rfl⟩⟩
  · exact absurd rfl hne
  · exact absurd rfl hne
  · exact absurd (congrArg Envelope.state (x.writeLfoReg_eg tables 6 d)).symm hne
  · exact absurd (congrArg Envelope.state (x.writeLfoReg_eg tables 7 d)).symm hne

theorem exec_wrSample_selected {s : State} {v : VoiceId} (data : Byte) (h : s.selVoice = some v) :
    exec (.wrSample data) s = .next (s.updateVoice v fun x => x.writeSample tables s.rom data) :=
  congrArg Host.Outcome.next (s.onSelected_some v _ h)

theorem exec_wrKeyoff_selected {s : State} {v : VoiceId} (data : Byte) (h : s.selVoice = some v) :
    exec (.wrKeyoff data) s = .next (s.updateVoice v fun x => x.writeKeyoff data) :=
  congrArg Host.Outcome.next (s.onSelected_some v _ h)

theorem exec_wrKeyon_selected {s : State} {v : VoiceId} (data : Byte) (h : s.selVoice = some v) :
    exec (.wrKeyon data) s = .next (s.updateVoice v fun x => x.writeKeyon tables data) :=
  congrArg Host.Outcome.next (s.onSelected_some v _ h)

/-- Only two things but a `RESET` change an envelope's state: a register operation on the selected voice, and the
envelope's own tick in a voice that plays (41_envelope.md R190). -/
theorem exec_eg_state_changed {i : Instr} {s t : State} (h : exec i s = .next t) (hreset : i ≠ .reset) (v : VoiceId)
    (hne : (s.voice v).eg.state ≠ (t.voice v).eg.state) :
    (s.selVoice = some v ∧ RegisterOp s.rom s.rate i (s.voice v) (t.voice v)) ∨
    (i = .tick ∧ (s.voice v).playing = true ∧ (t.voice v).eg = (s.voice v).eg.tick) := by
  rcases exec_voice h v with hsame | hop | ⟨rfl, hvoice⟩ | ⟨rfl, -⟩
  · exact absurd (by rw [hsame]) hne
  · exact .inl hop
  · cases hplay : (s.voice v).playing with
    | false => exact absurd (by rw [hvoice, Voice.tick_not_playing _ _ _ hplay]) hne
    | true =>
      cases h
      exact .inr ⟨rfl, rfl, State.tick_voice_eg hplay⟩
  · exact absurd rfl hreset

/-- Settles O49: a change is a register operation's or a tick's transition, and each transition's own rule gives the
state it leads to. -/
theorem envelopeTransitions : Obligations.EnvelopeTransitions := by
  intro i s t v h hreset
  refine ⟨fun hne => ?only, fun hsel hcause => ?toAttack, fun hsel hcause hrr => ?toRelease,
    fun htick hplay hattack hceil => ?fromAttack, fun htick hplay hdecay1 hthr => ?fromDecay1,
    fun htick hplay hrelease hzero => ?stop⟩
  case only =>
    rcases exec_eg_state_changed h hreset v hne with ⟨hsel, hop⟩ | ⟨rfl, hplay, heg⟩
    · rcases hop.eg_transition hne with ⟨hattack, hcause⟩ | ⟨hrelease, hcause⟩
      · exact .inl ⟨hattack, hsel, hcause⟩
      · exact .inr (.inl ⟨hrelease, hsel, hcause⟩)
    · rw [heg] at hne ⊢
      rcases Envelope.tick_transition hne.symm with hfromAttack | hfromDecay1
      · exact .inr (.inr (.inl ⟨rfl, hplay, hfromAttack⟩))
      · exact .inr (.inr (.inr ⟨rfl, hplay, hfromDecay1⟩))
  case toAttack =>
    rcases hcause with ⟨d, rfl⟩ | ⟨⟨d, rfl⟩, hplay⟩
    · cases (exec_wrKeyon_selected d hsel).symm.trans h
      rw [State.updateVoice_voice_same, Voice.writeKeyon_eg_state]
    · cases (exec_wrSample_selected d hsel).symm.trans h
      rw [State.updateVoice_voice_same, Voice.writeSample_eg_state, if_pos hplay]
  case toRelease =>
    obtain ⟨d, rfl⟩ := hcause
    cases (exec_wrKeyoff_selected d hsel).symm.trans h
    rw [State.updateVoice_voice_same, Voice.writeKeyoff_eg_state, if_neg ((ne_instantRelease_iff _).mpr hrr)]
  case fromAttack =>
    subst htick; cases h
    rw [State.tick_voice_eg hplay] at hceil ⊢
    have hnext := Envelope.tick_state_of_attack_at_ceiling hattack hceil
    exact ⟨fun hno => hnext.trans (if_neg hno.not_ge), fun hskip => hnext.trans (if_pos hskip)⟩
  case fromDecay1 =>
    subst htick; cases h
    rw [State.tick_voice_eg hplay] at hthr ⊢
    exact (Envelope.tick_state_of_decay1 hdecay1).trans (if_pos hthr)
  case stop =>
    subst htick; cases h
    rw [State.tick_voice_eg hplay] at hzero
    exact Bool.eq_false_iff.mpr fun hgoes => (State.tick_voice_playing_iff hplay).mp hgoes ⟨hrelease, hzero⟩

end Sys2Proof.Machine

/-! The proofs of the statements of 42_lfo.md, and what the two units give to a tick: the advance of the playback offset
and a playing voice's addends. -/

namespace Sys2Proof.Machine

/-! ### The LFO units -/

theorem LfoUnit.advance_phase (u : LfoUnit) : u.advance.phase = u.phase + u.pstep := rfl

/-- The phase wraps at 2^16 (42_lfo.md R223). -/
theorem LfoUnit.advance_phase_toNat (u : LfoUnit) :
    u.advance.phase.toNat = (u.phase.toNat + u.pstep.toNat) % 65536 := BitVec.toNat_add ..

/-- The pitch unit's condition (42_lfo.md R222). -/
theorem Voice.pitchEnabled_iff (x : Voice) : x.pitchEnabled = true ↔ x.reg 6 ≠ 0 := bne_iff_ne

/-- The amplitude unit's condition (42_lfo.md R222). -/
theorem Voice.ampEnabled_iff (x : Voice) : x.ampEnabled = true ↔ x.reg 7 ≠ 0 := bne_iff_ne

/-- An enabled pitch unit advances in step 4 of a tick (42_lfo.md R223). -/
theorem Voice.pitchAdvance_plfo_of_enabled {x : Voice} (h : x.reg 6 ≠ 0) : x.pitchAdvance.plfo = x.plfo.advance :=
  if_pos (x.pitchEnabled_iff.mpr h)

/-- An enabled amplitude unit advances in step 8 of a tick (42_lfo.md R223). -/
theorem Voice.ampAdvance_alfo_of_enabled {x : Voice} (h : x.reg 7 ≠ 0) : x.ampAdvance.alfo = x.alfo.advance :=
  if_pos (x.ampEnabled_iff.mpr h)

section
variable (T : Config.Tables)

/-- The step of a tick is the voice's own where the pitch unit is disabled (42_lfo.md R227). -/
theorem Voice.stepEff_of_disabled {x : Voice} (h : x.reg 6 = 0) : x.pitchAdvance.stepEff T = x.step :=
  if_neg fun henabled => (x.pitchEnabled_iff.mp henabled) h

/-- The step of a tick is scaled by the advanced unit's modifier where the pitch unit is enabled (42_lfo.md R227). -/
theorem Voice.stepEff_of_enabled {x : Voice} (h : x.reg 6 ≠ 0) :
    x.pitchAdvance.stepEff T = x.step * pitchModifier T x.plfo.advance / 4096 := by
  rw [← Voice.pitchAdvance_plfo_of_enabled h]
  exact if_pos (x.pitchEnabled_iff.mpr h)

/-- The sample stays where the amplitude unit is disabled (42_lfo.md R228). -/
theorem Voice.tremolo_of_disabled {x : Voice} (sample : Int) (h : x.reg 7 = 0) :
    x.ampAdvance.tremolo T sample = sample :=
  if_neg fun henabled => (x.ampEnabled_iff.mp henabled) h

/-- The sample is scaled by the advanced unit's modifier where the amplitude unit is enabled (42_lfo.md R228). -/
theorem Voice.tremolo_of_enabled {x : Voice} (sample : Int) (h : x.reg 7 ≠ 0) :
    x.ampAdvance.tremolo T sample = floorShift (sample * ampModifier T x.alfo.advance) 12 := by
  rw [← Voice.ampAdvance_alfo_of_enabled h]
  exact if_pos (x.ampEnabled_iff.mpr h)

end

/-! ### Depth 0 -/

section
variable {T : Config.Tables} (hT : TablesOk T) {u : LfoUnit} (h : u.depth = 0)
include hT h

/-- The pitch scale's flat row is the modifier ×1 (42_lfo.md R229). -/
theorem pitchModifier_of_depth_zero : pitchModifier T u = 4096 := by
  rw [pitchModifier, h, hT.pitchFlat]
  rfl

/-- The amplitude scale's flat row is the modifier ×1 (42_lfo.md R229). -/
theorem ampModifier_of_depth_zero : ampModifier T u = 4096 := by
  rw [ampModifier, h, hT.ampFlat]
  rfl

end

/-- A shift undoes a product with its own power of two (42_lfo.md R229). -/
theorem floorShift_mul_two_pow (a : Int) (n : Nat) : floorShift (a * (2 ^ n : Nat)) n = a :=
  Int.mul_ediv_cancel a (by positivity)

/-- Settles O47: the flat rows are a constraint on the tables, and they make both modifiers ×1. -/
theorem depthZeroIsFlat : Obligations.DepthZeroIsFlat := by
  refine ⟨fun i => ⟨tables_ok.pitchFlat i, tables_ok.ampFlat i⟩, fun x hdepth hreg => ?pitch,
    fun x sample hdepth hreg => ?amp⟩
  case pitch =>
    have hmod : pitchModifier tables x.plfo.advance = 4096 := pitchModifier_of_depth_zero tables_ok hdepth
    rw [Voice.stepEff_of_enabled tables hreg, Voice.pitchAdvance_plfo_of_enabled hreg, hmod]
    exact ⟨Nat.mul_div_cancel _ (by decide), rfl, LfoUnit.advance_phase _⟩
  case amp =>
    have hmod : ampModifier tables x.alfo.advance = 4096 := ampModifier_of_depth_zero tables_ok hdepth
    rw [Voice.tremolo_of_enabled tables sample hreg, Voice.ampAdvance_alfo_of_enabled hreg, hmod]
    exact ⟨floorShift_mul_two_pow sample 12, rfl, LfoUnit.advance_phase _⟩

/-! ### The phases in a tick -/

section
variable (T : Config.Tables) (m : Memory) (x : Voice)

/-- The pitch unit advances in a tick exactly where its voice plays and register 6 is not zero (42_lfo.md R223). -/
theorem Voice.tick_plfo :
    (x.tick T m).voice.plfo = if x.playing = true ∧ x.reg 6 ≠ 0 then x.plfo.advance else x.plfo := by
  cases hplay : x.playing with
  | false => simp [Voice.tick_not_playing _ _ _ hplay]
  | true => simp [Voice.tick_voice _ _ _ hplay, Voice.tickState_eq, Voice.pitchEnabled]

/-- The amplitude unit advances in a tick exactly where its voice plays and register 7 is not zero (42_lfo.md R223). -/
theorem Voice.tick_alfo :
    (x.tick T m).voice.alfo = if x.playing = true ∧ x.reg 7 ≠ 0 then x.alfo.advance else x.alfo := by
  cases hplay : x.playing with
  | false => simp [Voice.tick_not_playing _ _ _ hplay]
  | true => simp [Voice.tick_voice _ _ _ hplay, Voice.tickState_eq, Voice.ampEnabled]

end

/-- What a conditional advance of a unit does: the latched step and depth stay, and the phase moves under the condition
alone (42_lfo.md R223). -/
theorem LfoUnit.advance_if {u w : LfoUnit} {p : Prop} [Decidable p] (h : w = if p then u.advance else u) :
    w.pstep = u.pstep ∧ w.depth = u.depth ∧ (p → w.phase.toNat = (u.phase.toNat + u.pstep.toNat) % 65536) ∧
      (¬p → w.phase = u.phase) := by
  subst h
  split
  · next hp => exact ⟨rfl, rfl, fun _ => u.advance_phase_toNat, fun hn => absurd hp hn⟩
  · next hn => exact ⟨rfl, rfl, fun hp => absurd hp hn, fun _ => rfl⟩

/-- Settles O39: each unit's tick is an advance under its own condition. -/
theorem tickAdvancesEnabledPhases : Obligations.TickAdvancesEnabledPhases := by
  intro s v
  obtain ⟨hpstep, hpdepth, hpon, hpoff⟩ := LfoUnit.advance_if ((s.voice v).tick_plfo tables s.rom)
  obtain ⟨hastep, hadepth, haon, haoff⟩ := LfoUnit.advance_if ((s.voice v).tick_alfo tables s.rom)
  refine ⟨_, exec_tick s, ?_⟩
  rw [State.tick_voice]
  refine ⟨hpstep, hpdepth, hastep, hadepth, fun hplay hreg => hpon ⟨hplay, hreg⟩,
    fun hplay hreg => haon ⟨hplay, hreg⟩, fun hoff => hpoff ?_, fun hoff => haoff ?_⟩
  all_goals
    rintro ⟨hplay, hreg⟩
    exact hoff.elim (fun hsilent => Bool.false_ne_true (hsilent.symm.trans hplay)) hreg

/-! ### The playback offset in a tick -/

/-- A signed byte centred at 128 indexes a table of 256 entries (42_lfo.md R225). -/
theorem ofInt_toInt_add_128_toNat (b : BitVec 8) : ((BitVec.ofInt 8 (b.toInt + 128)).toNat : Int) = b.toInt + 128 := by
  have hlow : -128 ≤ b.toInt := BitVec.le_toInt b
  have hhigh : b.toInt < 128 := BitVec.toInt_lt
  rw [BitVec.toNat_ofInt]
  omega

section
variable {smp : Sample} {offset : BitVec (16 + Config.fracBits)} {eff : Nat}

/-- An advance at or past the end goes exactly to the loop point (43_sample_decode.md R267). -/
theorem advanceOffset_toNat_of_wrap (h : smp.endPos.toNat * 4096 ≤ offset.toNat + eff) :
    (advanceOffset smp offset eff).toNat = smp.loopPos.toNat * 4096 := by
  have hloop : smp.loopPos.toNat < 2 ^ 16 := smp.loopPos.isLt
  have hfit : smp.loopPos.toNat * 4096 < 2 ^ 28 := by omega
  have hwrap : offset.toNat + eff ≥ atSample smp.endPos := h
  rw [advanceOffset, if_pos hwrap, BitVec.toNat_ofNat]
  exact Nat.mod_eq_of_lt hfit

/-- An advance that stays before the end is the exact sum (43_sample_decode.md R266). -/
theorem advanceOffset_toNat_of_lt (h : offset.toNat + eff < smp.endPos.toNat * 4096) :
    (advanceOffset smp offset eff).toNat = offset.toNat + eff := by
  have hend : smp.endPos.toNat < 2 ^ 16 := smp.endPos.isLt
  have hfit : offset.toNat + eff < 2 ^ 28 := by omega
  have hbefore : ¬offset.toNat + eff ≥ atSample smp.endPos := Nat.not_le.mpr h
  rw [advanceOffset, if_neg hbefore, BitVec.toNat_ofNat]
  exact Nat.mod_eq_of_lt hfit

end

/-- Settles O33: the step of the tick is the pitch unit's, and the new offset is the exact sum or the loop point. -/
theorem tickAdvancesTheOffset : Obligations.TickAdvancesTheOffset := by
  intro s v hplay
  refine ⟨_, exec_tick s, ?_⟩
  rw [State.tick_voice]
  generalize s.voice v = x at hplay
  have hoffset : (x.tick tables s.rom).voice.offset = x.tickedOffset tables := by
    rw [Voice.tick_voice _ _ _ hplay, Voice.tickState_eq]
  refine ⟨_, x.pitchAdvance.stepEff tables, ofInt_toInt_add_128_toNat _, Voice.stepEff_of_disabled tables,
    fun hreg => ⟨?phase, Voice.stepEff_of_enabled tables hreg⟩, fun hwrap => ?wrap, fun hlt => ?stay, ?step⟩
  case phase => rw [Voice.tick_plfo, if_pos ⟨hplay, hreg⟩, LfoUnit.advance_phase]
  case wrap => rw [hoffset]; exact advanceOffset_toNat_of_wrap hwrap
  case stay => rw [hoffset]; exact advanceOffset_toNat_of_lt hlt
  case step => rw [Voice.tick_voice _ _ _ hplay, Voice.tickState_eq]

/-! ### The addends of a playing voice -/

/-- The result of a shift, as the floor of a quotient (00_scope.md R15). -/
theorem floorShift_bounds (a : Int) (n : Nat) :
    floorShift a n * (2 ^ n : Nat) ≤ a ∧ a < (floorShift a n + 1) * (2 ^ n : Nat) :=
  ⟨Int.ediv_mul_le a (by positivity), Int.lt_ediv_add_one_mul_self a (by positivity)⟩

/-- One channel's addend is the floored product with the pan gain (44_mixer.md R297). -/
theorem panProduct_bounds (gain : Nat) (s : Int) :
    panProduct gain s * 4096 ≤ gain * s ∧ gain * s < (panProduct gain s + 1) * 4096 := floorShift_bounds _ 12

/-- The integer part of a total level (44_mixer.md R295). -/
theorem tlInt_toNat (tl : BitVec (7 + Config.tlShift)) : (tlInt tl).toNat = tl.toNat / 4096 := by
  have hint : tl.toNat / 2 ^ 12 < 2 ^ 7 := Nat.div_lt_of_lt_mul tl.isLt
  rw [tlInt, BitVec.extractLsb'_toNat, Nat.shiftRight_eq_div_pow]
  exact Nat.mod_eq_of_lt hint

/-- A pan key is its pan code above its seven-bit level (44_mixer.md R295). -/
theorem panKey_toNat (pan : BitVec 4) (tl : BitVec (7 + Config.tlShift)) :
    (panKey pan tl).toNat = pan.toNat * 128 + tl.toNat / 4096 := by
  rw [panKey, BitVec.toNat_append, ← Nat.shiftLeft_add_eq_or_of_lt (tlInt tl).isLt, Nat.shiftLeft_eq, tlInt_toNat]

section
variable (T : Config.Tables) (m : Memory) (x : Voice)

/-- The pan key of a playing voice's tick (44_mixer.md R295, R296). -/
def Voice.tickKey : BitVec 11 := panKey x.pan (keyLevel T.tlKeySample x.tl (x.tickState T m).tl)

/-- A playing voice's two addends: one sample through the two pan tables at one key (44_mixer.md R297). -/
theorem Voice.tick_addends (h : x.playing = true) :
    (x.tick T m).left = panProduct (T.panL (x.tickKey T m)) (gained T (x.tickState T m) (x.interpolated m)) ∧
    (x.tick T m).right = panProduct (T.panR (x.tickKey T m)) (gained T (x.tickState T m) (x.interpolated m)) := by
  rw [Voice.tick_playing _ _ _ h, Voice.tickKey, ← Voice.tickState_pan T m x]
  exact ⟨rfl, rfl⟩

/-- The amplitude LFO of a tick reads the unit as step 8 leaves it (42_lfo.md R228). -/
theorem Voice.tremolo_tickState (sample : Int) :
    (x.tickState T m).tremolo T sample = x.ampAdvance.tremolo T sample := by
  rw [Voice.tickState_eq]
  rfl

/-- The sample after the gain is the floored product of the sample after the amplitude LFO (44_mixer.md R292). -/
theorem Voice.gained_tickState_bounds (sample : Int) :
    let s8 := x.ampAdvance.tremolo T sample
    let s9 := gained T (x.tickState T m) sample
    let level := volInt (x.tickState T m).eg.vol
    s9 * 1024 ≤ s8 * T.expGain level ∧ s8 * T.expGain level < (s9 + 1) * 1024 := by
  rw [← Voice.tremolo_tickState T m]
  exact floorShift_bounds _ 10

end

/-- Settles O40: each shift of the tick is a floor, and the key is the pan code above the level that TL_KEY_SAMPLE
names. -/
theorem voiceAddends : Obligations.VoiceAddends := by
  intro s v hplay
  refine ⟨_, exec_tick s, ?_⟩
  rw [State.tick_voice]
  generalize s.voice v = x at hplay
  rw [Voice.tick_voice _ _ _ hplay]
  obtain ⟨hgainLow, hgainHigh⟩ := x.gained_tickState_bounds tables s.rom (x.interpolated s.rom)
  obtain ⟨hleft, hright⟩ := x.tick_addends tables s.rom hplay
  refine ⟨_, _, x.tickKey tables s.rom, _, Voice.tremolo_of_disabled tables _, fun hreg => ⟨?phase, ?tremolo⟩,
    ?envelope, volInt_toNat _, hgainLow, hgainHigh, panKey_toNat _ _, ?addends⟩
  case phase => rw [← Voice.tick_voice _ _ _ hplay, Voice.tick_alfo, if_pos ⟨hplay, hreg⟩, LfoUnit.advance_phase]
  case tremolo =>
    rw [Voice.tremolo_of_enabled tables _ hreg]
    exact floorShift_bounds _ 12
  case envelope => rw [Voice.tickState_eq]
  case addends =>
    rw [hleft, hright, ← and_assoc]
    exact ⟨panProduct_bounds _ _, panProduct_bounds _ _⟩

/-! ### The LFO fields under the register operations -/

section
variable (T : Config.Tables) (x : Voice) (r : Fin 8) (d : Byte)

/-- A write to register 6 or 7 keeps both phases (42_lfo.md R221). -/
theorem Voice.writeLfoReg_phase :
    (x.writeLfoReg T r d).plfo.phase = x.plfo.phase ∧ (x.writeLfoReg T r d).alfo.phase = x.alfo.phase := by
  rw [Voice.writeLfoReg_eq, Voice.lfoRecompute_eq]
  dsimp only
  constructor <;> split <;> rfl

/-- The registers after a write to register 6 or 7 (40_register_bank.md R168, R169). -/
theorem Voice.reg_writeLfoReg (q : Fin 8) : (x.writeLfoReg T r d).reg q = if q = r then d else x.reg q := by
  rw [Voice.writeLfoReg_eq]
  exact x.reg_storeReg r q d

end

/-- The two voices agree in everything that a write to register 6 or 7 reads or writes. -/
def Voice.SameLfo (x y : Voice) : Prop :=
  x.reg 6 = y.reg 6 ∧ x.reg 7 = y.reg 7 ∧ x.plfo = y.plfo ∧ x.alfo = y.alfo

/-- The same write to register 6 or 7 keeps two voices alike in their LFO fields (42_lfo.md R221). -/
theorem Voice.SameLfo.writeLfoReg {x y : Voice} (h : x.SameLfo y) (T : Config.Tables) (r : Fin 8) (d : Byte) :
    (x.writeLfoReg T r d).SameLfo (y.writeLfoReg T r d) := by
  obtain ⟨h6, h7, hp, ha⟩ := h
  refine ⟨?_, ?_, ?_, ?_⟩
  · rw [Voice.reg_writeLfoReg, Voice.reg_writeLfoReg, h6]
  · rw [Voice.reg_writeLfoReg, Voice.reg_writeLfoReg, h7]
  · simp only [Voice.writeLfoReg_eq, Voice.lfoRecompute_eq, Voice.reg_storeReg, Voice.storeReg_plfo, h6, hp]
  · simp only [Voice.writeLfoReg_eq, Voice.lfoRecompute_eq, Voice.reg_storeReg, Voice.storeReg_alfo, h6, h7, ha]

/-- Storing a byte in register 1 and the metadata it names leaves all of that alone (40_register_bank.md R152). -/
theorem Voice.sameLfo_storeReg_one (x : Voice) (d : Byte) (smp : Sample) :
    Voice.SameLfo { x.storeReg 1 d with smp := smp } x :=
  ⟨x.reg_storeReg 1 6 d, x.reg_storeReg 1 7 d, rfl, rfl⟩

section
variable (T : Config.Tables) (m : Memory) (d : Byte) (x : Voice)

/-- The metadata after a register-1 write (40_register_bank.md R152). -/
theorem Voice.writeSample_smp : (x.writeSample T m d).smp = headerDecode m (sampleIndex d (x.reg 2)) := by
  have hloaded : (x.sampleLoaded T m d).smp = headerDecode m (sampleIndex d (x.reg 2)) := by
    simp only [Voice.sampleLoaded, Voice.egRecalc_eq, Voice.writeLfoReg_eq]
  rw [Voice.writeSample_eq]
  split
  · rw [Voice.retrigger_eq, hloaded]
  · exact hloaded

/-- The LFO units after a register-1 write are those after the load, whether the voice plays or not (42_lfo.md R230). -/
theorem Voice.writeSample_lfo_eq_sampleLoaded :
    (x.writeSample T m d).plfo = (x.sampleLoaded T m d).plfo ∧
      (x.writeSample T m d).alfo = (x.sampleLoaded T m d).alfo := by
  rw [Voice.writeSample_eq]
  split <;> exact ⟨rfl, rfl⟩

/-- A register-1 write leaves the LFO units as writing its two LFO bytes to registers 6 and 7 does (42_lfo.md R230). -/
theorem Voice.writeSample_lfo :
    let y := x.writeSample T m d
    let z := (x.writeLfoReg T 6 y.smp.lfoVib).writeLfoReg T 7 (y.smp.lfoAmp.setWidth 8)
    y.plfo = z.plfo ∧ y.alfo = z.alfo := by
  obtain ⟨hp, ha⟩ := x.writeSample_lfo_eq_sampleLoaded T m d
  dsimp only
  rw [hp, ha, Voice.writeSample_smp]
  obtain ⟨-, -, hp', ha'⟩ := ((x.sameLfo_storeReg_one d _).writeLfoReg T 6 _).writeLfoReg T 7 _
  exact ⟨hp', ha'⟩

/-- A register-1 write keeps both phases (42_lfo.md R230). -/
theorem Voice.writeSample_phase :
    (x.writeSample T m d).plfo.phase = x.plfo.phase ∧ (x.writeSample T m d).alfo.phase = x.alfo.phase := by
  obtain ⟨hp, ha⟩ := x.writeSample_lfo T m d
  rw [hp, ha, (Voice.writeLfoReg_phase ..).left, (Voice.writeLfoReg_phase ..).right]
  exact Voice.writeLfoReg_phase ..

end

/-- The register operations that can change an LFO field: the sample write and the two LFO writes (42_lfo.md R230). -/
theorem RegisterOp.lfo_cases {m : Memory} {R : Rat} {i : Instr} {x y : Voice} (h : RegisterOp m R i x y) :
    (y.plfo = x.plfo ∧ y.alfo = x.alfo) ∨ (∃ d, i = .wrSample d ∧ y = x.writeSample tables m d) ∨
      (∃ d, i = .wrLfo d ∧ y = x.writeLfoReg tables 6 d) ∨ (∃ d, i = .wrAm d ∧ y = x.writeLfoReg tables 7 d) := by
  rcases h with ⟨d, rfl, rfl⟩ | hsample | ⟨d, rfl, rfl⟩ | ⟨d, rfl, rfl⟩ | ⟨d, rfl, rfl⟩ | ⟨d, rfl, rfl⟩ |
    ⟨d, rfl, rfl⟩ | ⟨d, rfl, rfl⟩ | hlfo | ham
  · exact .inl ⟨rfl, rfl⟩
  · exact .inr (.inl hsample)
  · exact .inl ⟨rfl, rfl⟩
  · exact .inl ⟨rfl, rfl⟩
  · rw [Voice.writeKeyoff_eq]; exact .inl ⟨rfl, rfl⟩
  · exact .inl ⟨rfl, rfl⟩
  · exact .inl ⟨rfl, rfl⟩
  · exact .inl ⟨rfl, rfl⟩
  · exact .inr (.inr (.inl hlfo))
  · exact .inr (.inr (.inr ham))

/-- No register operation changes a phase (42_lfo.md R230). -/
theorem RegisterOp.phase_kept {m : Memory} {R : Rat} {i : Instr} {x y : Voice} (h : RegisterOp m R i x y) :
    y.plfo.phase = x.plfo.phase ∧ y.alfo.phase = x.alfo.phase := by
  rcases h.lfo_cases with ⟨hp, ha⟩ | ⟨d, -, rfl⟩ | ⟨d, -, rfl⟩ | ⟨d, -, rfl⟩
  · rw [hp, ha]; exact ⟨rfl, rfl⟩
  · exact x.writeSample_phase tables m d
  · exact x.writeLfoReg_phase tables 6 d
  · exact x.writeLfoReg_phase tables 7 d

/-- Key-on, key-off and pitch writes keep the LFO units (42_lfo.md R230). -/
theorem RegisterOp.lfo_kept {m : Memory} {R : Rat} {i : Instr} {x y : Voice} (h : RegisterOp m R i x y) {d : Byte}
    (hi : i = .wrKeyon d ∨ i = .wrKeyoff d ∨ i = .wrPitchl d ∨ i = .wrPitchh d) :
    y.plfo = x.plfo ∧ y.alfo = x.alfo := by
  rcases h.lfo_cases with hkept | ⟨e, rfl, -⟩ | ⟨e, rfl, -⟩ | ⟨e, rfl, -⟩
  · exact hkept
  all_goals simp at hi

/-- An operation but a tick and a reset changes a voice by a register operation or not at all. -/
theorem exec_voice_of_ne_tick_reset {i : Instr} {s t : State} (h : exec i s = .next t) (htick : i ≠ .tick)
    (hreset : i ≠ .reset) (v : VoiceId) :
    t.voice v = s.voice v ∨ RegisterOp s.rom s.rate i (s.voice v) (t.voice v) := by
  rcases exec_voice h v with hsame | ⟨-, hop⟩ | ⟨rfl, -⟩ | ⟨rfl, -⟩
  · exact .inl hsame
  · exact .inr hop
  · exact absurd rfl htick
  · exact absurd rfl hreset

theorem exec_wrLfo_selected {s : State} {v : VoiceId} (data : Byte) (h : s.selVoice = some v) :
    exec (.wrLfo data) s = .next (s.updateVoice v fun x => x.writeLfoReg tables 6 data) :=
  congrArg Host.Outcome.next (s.onSelected_some v _ h)

theorem exec_wrAm_selected {s : State} {v : VoiceId} (data : Byte) (h : s.selVoice = some v) :
    exec (.wrAm data) s = .next (s.updateVoice v fun x => x.writeLfoReg tables 7 data) :=
  congrArg Host.Outcome.next (s.onSelected_some v _ h)

/-- Settles O54: every register operation keeps the phases, all but three keep the units, and a sample write's cascade
is its two LFO writes. -/
theorem lfoFieldsSurviveRetrigger : Obligations.LfoFieldsSurviveRetrigger := by
  refine ⟨fun i s t v d h hi => ?kept, fun i s t v h htick hreset => ?phase, fun s t v d hsel h => ?cascade⟩
  case kept =>
    have htick : i ≠ .tick := by rintro rfl; simp at hi
    have hreset : i ≠ .reset := by rintro rfl; simp at hi
    rcases exec_voice_of_ne_tick_reset h htick hreset v with hsame | hop
    · rw [hsame]; exact ⟨rfl, rfl⟩
    · exact hop.lfo_kept hi
  case phase =>
    rcases exec_voice_of_ne_tick_reset h htick hreset v with hsame | hop
    · rw [hsame]; exact ⟨rfl, rfl⟩
    · exact hop.phase_kept
  case cascade =>
    cases (exec_wrSample_selected d hsel).symm.trans h
    refine ⟨_, _, exec_wrLfo_selected _ hsel, exec_wrAm_selected _ hsel, ?_⟩
    simp only [State.updateVoice_voice_same]
    exact Voice.writeSample_lfo ..

end Sys2Proof.Machine

/-! The proofs of the statements of 43_sample_decode.md: the header fields, the two sample formats, the interpolation
and the previous sample. -/

namespace Sys2Proof.Machine

/-! ### Nibbles and concatenations of bytes -/

theorem lowNibble_toNat (b : Byte) : (b.extractLsb' 0 4).toNat = b.toNat % 16 := by
  rw [BitVec.extractLsb'_toNat, Nat.shiftRight_zero]

/-- A header byte's high nibble is read as a pan code is (30_encoding.md R110). -/
theorem highNibble_toNat (b : Byte) : (b.extractLsb' 4 4).toNat = b.toNat / 16 := panCode_toNat b

/-- Concatenation is big-endian (20_memory.md R74). -/
theorem append_toNat {n k : Nat} (x : BitVec n) (y : BitVec k) : (x ++ y).toNat = x.toNat * 2 ^ k + y.toNat := by
  rw [BitVec.toNat_append, ← Nat.shiftLeft_add_eq_or_of_lt y.isLt, Nat.shiftLeft_eq]

/-! ### The sample header -/

/-- A header byte is read at the exact sum (43_sample_decode.md R251). -/
theorem headerByte_eq_lookup (m : Memory) (idx : BitVec 9) {n : Nat} (hn : n < 12) :
    memRead m (headerAddr idx n) = m.lookup (idx.toNat * 12 + n) := by
  rw [memRead, headerAddr_toNat idx hn]

/-- The start of a header is the 24-bit field without its top three bits (43_sample_decode.md R252). -/
theorem headerStart_toNat (b0 b1 b2 : Byte) :
    ((b0 ++ b1 ++ b2).extractLsb' 0 21).toNat = (b0.toNat * 65536 + b1.toNat * 256 + b2.toNat) % 2097152 := by
  rw [BitVec.extractLsb'_toNat, Nat.shiftRight_zero, append_toNat, append_toNat]
  omega

/-- The format of a header is the top bit of its first byte (43_sample_decode.md R252). -/
theorem formatOf_eq_packed12_iff (b0 b1 b2 : Byte) :
    formatOf ((b0 ++ b1 ++ b2).getLsbD 23) = .packed12 ↔ 128 ≤ b0.toNat := by
  have hbit : (b0 ++ b1 ++ b2).getLsbD 23 = b0.msb := by
    simp only [BitVec.getLsbD_append, BitVec.msb_eq_getLsbD_last]
    rfl
  rw [hbit, BitVec.msb_eq_decide, formatOf]
  simp

/-- The end of a header is the complement of its count field (43_sample_decode.md R254). -/
theorem headerEnd_toNat (count : BitVec 16) : (0xFFFF#16 - count).toNat = 65535 - count.toNat :=
  BitVec.toNat_sub_of_le (Nat.le_of_lt_succ count.isLt)

/-- A register operation but `WR.SAMPLE` keeps the metadata (10_state.md R38). -/
theorem RegisterOp.smp_cases {m : Memory} {R : Rat} {i : Instr} {x y : Voice} (h : RegisterOp m R i x y) :
    y.smp = x.smp ∨ ∃ d, i = .wrSample d := by
  rcases h with ⟨d, rfl, rfl⟩ | ⟨d, rfl, rfl⟩ | ⟨d, rfl, rfl⟩ | ⟨d, rfl, rfl⟩ | ⟨d, rfl, rfl⟩ | ⟨d, rfl, rfl⟩ |
    ⟨d, rfl, rfl⟩ | ⟨d, rfl, rfl⟩ | ⟨d, rfl, rfl⟩ | ⟨d, rfl, rfl⟩
  · exact .inl rfl
  · exact .inr ⟨d, rfl⟩
  · exact .inl rfl
  · exact .inl rfl
  · rw [Voice.writeKeyoff_eq]; exact .inl rfl
  · exact .inl rfl
  · exact .inl rfl
  · exact .inl rfl
  · rw [Voice.writeLfoReg_eq]; exact .inl rfl
  · rw [Voice.writeLfoReg_eq]; exact .inl rfl

/-- A tick keeps the metadata (44_mixer.md R310). -/
theorem Voice.tick_smp (T : Config.Tables) (m : Memory) (x : Voice) : (x.tick T m).voice.smp = x.smp := by
  cases h : x.playing with
  | true => rw [Voice.tick_voice _ _ _ h, Voice.tickState_eq]
  | false => rw [Voice.tick_not_playing _ _ _ h]

/-- Settles O29: the header bytes are read at the exact addresses and each field is a nibble or a concatenation of
them; outside `WR.SAMPLE` and `RESET` no operation writes the metadata. -/
theorem headerFields : Obligations.HeaderFields := by
  refine ⟨fun m idx => ?fields, fun i s t v h hsample hreset => ?kept⟩
  case fields =>
    dsimp only
    simp (disch := decide) only [headerDecode, headerByte_eq_lookup]
    exact ⟨headerStart_toNat _ _ _, formatOf_eq_packed12_iff _ _ _, append_toNat _ _,
      (headerEnd_toNat _).trans (congrArg _ (append_toNat _ _)), trivial, highNibble_toNat _, lowNibble_toNat _,
      lowNibble_toNat _, highNibble_toNat _, lowNibble_toNat _, highNibble_toNat _, lowNibble_toNat _⟩
  case kept =>
    rcases exec_voice h v with hsame | ⟨-, hop⟩ | ⟨-, htick⟩ | ⟨hr, -⟩
    · rw [hsame]
    · exact hop.smp_cases.resolve_right fun ⟨d, hd⟩ => hsample d hd
    · rw [htick, Voice.tick_smp]
    · exact absurd hr hreset

/-! ### The sample formats -/

/-- A linear-8 sample is a byte at the exact address above a zero byte (43_sample_decode.md R261). -/
theorem decode8_eq (m : Memory) (base : BitVec 21) (spos : BitVec 16) :
    decode8 m base spos = m.lookup (base.toNat + spos.toNat) ++ 0#8 := by
  rw [decode8, dataByte_eq_lookup m (linear8Addr_lt base spos)]

theorem decode8_toInt (m : Memory) (base : BitVec 21) (spos : BitVec 16) :
    (decode8 m base spos).toInt = (m.lookup (base.toNat + spos.toNat)).toInt * 256 := by
  rw [decode8_eq, BitVec.toInt_append_zero, Int.mul_comm]
  rfl

theorem Voice.decodeSample_linear8 {v : Voice} (m : Memory) (h : v.format = .linear8) (spos : BitVec 16) :
    v.decodeSample m spos = decode8 m v.base spos := by
  rw [Voice.decodeSample, h]

theorem Voice.decodeSample_packed12 {v : Voice} (m : Memory) (h : v.format = .packed12) (spos : BitVec 16) :
    v.decodeSample m spos = decode12 m v.base spos := by
  rw [Voice.decodeSample, h]

/-- Settles O30: appending a zero byte multiplies the signed byte by 256. -/
theorem linear8Sample : Obligations.Linear8Sample := by
  refine ⟨fun m base spos => ?value, fun m v hformat => ?use⟩
  case value =>
    have hlow := BitVec.le_toInt (m.lookup (base.toNat + spos.toNat))
    have hhigh := BitVec.toInt_lt (x := m.lookup (base.toNat + spos.toNat))
    refine ⟨decode8_toInt m base spos, ?_, ?_, BitVec.extractLsb'_append_eq_right⟩
    all_goals
      rw [decode8_toInt]
      omega
  case use =>
    have hdecode := Voice.decodeSample_linear8 m hformat
    exact ⟨hdecode, by rw [Voice.interpolated, hdecode]⟩

/-- A packed-linear-12 byte is read at the exact sum (43_sample_decode.md R262, 20_memory.md R80). -/
theorem packedByte_eq_lookup (m : Memory) (base : BitVec 21) (spos : BitVec 16) {n : Nat} (hn : n < 6) :
    dataByte m base (spos.toNat / 4 * 6 + n) = m.lookup (base.toNat + spos.toNat / 4 * 6 + n) := by
  rw [dataByte_eq_lookup m ((packed12Addr_le base spos hn).trans_lt (by decide)), Nat.add_assoc]

theorem packedPattern_toNat (high : Byte) (nibble : BitVec 4) :
    (packedPattern high nibble).toNat = high.toNat * 256 + nibble.toNat * 16 := by
  rw [packedPattern, append_toNat, append_toNat]
  simp only [BitVec.toNat_zero]
  omega

/-- The low four bits of a packed-linear-12 pattern are 0 (43_sample_decode.md R263). -/
theorem packedPattern_low (high : Byte) (nibble : BitVec 4) : (packedPattern high nibble).extractLsb' 0 4 = 0 :=
  BitVec.extractLsb'_append_eq_right

/-- Every layout of a packed-linear-12 group gives a pattern (43_sample_decode.md R263). -/
theorem decode12_low (m : Memory) (base : BitVec 21) (spos : BitVec 16) :
    (decode12 m base spos).extractLsb' 0 4 = 0 := by
  unfold decode12
  dsimp only
  split <;> exact packedPattern_low _ _

/-- Settles O31: in each of the four layouts the pattern is a high byte and a nibble of the group's bytes, read at
their exact addresses. -/
theorem packed12Samples : Obligations.Packed12Samples := by
  refine ⟨fun m base spos => ⟨fun h => ?zero, fun h => ?one, fun h => ?two, fun h => ?three, decode12_low m base spos⟩,
    fun m v hformat => ?use⟩
  case zero | two =>
    simp (disch := decide) only [decode12, h, packedPattern_toNat, lowNibble_toNat, packedByte_eq_lookup]
  case one | three =>
    simp (disch := decide) only [decode12, h, packedPattern_toNat, highNibble_toNat, packedByte_eq_lookup]
  case use =>
    have hdecode := Voice.decodeSample_packed12 m hformat
    exact ⟨hdecode, by rw [Voice.interpolated, hdecode]⟩

/-! ### Interpolation -/

/-- Below both samples is below their weighted mean (43_sample_decode.md R265). -/
theorem mul_le_weightedSum {lo c p : Int} {f : Nat} (hf : f ≤ 4096) (hc : lo ≤ c) (hp : lo ≤ p) :
    lo * 4096 ≤ c * f + p * (4096 - f) := by
  have hweight : (0 : Int) ≤ 4096 - f := by omega
  calc lo * 4096 = lo * f + lo * (4096 - f) := by ring
    _ ≤ c * f + p * (4096 - f) := by gcongr

/-- Above both samples is above their weighted mean (43_sample_decode.md R265). -/
theorem weightedSum_le_mul {hi c p : Int} {f : Nat} (hf : f ≤ 4096) (hc : c ≤ hi) (hp : p ≤ hi) :
    c * f + p * (4096 - f) ≤ hi * 4096 := by
  have hweight : (0 : Int) ≤ 4096 - f := by omega
  calc c * f + p * (4096 - f) ≤ hi * f + hi * (4096 - f) := by gcongr
    _ = hi * 4096 := by ring

/-- The interpolated sample is the floored weighted mean (43_sample_decode.md R265). -/
theorem interpolate_bounds (c p : Int) (f : Nat) :
    interpolate c p f * 4096 ≤ c * f + p * (4096 - f) ∧ c * f + p * (4096 - f) < (interpolate c p f + 1) * 4096 :=
  floorShift_bounds _ 12

/-- At fraction 0 the interpolated sample is the previous one (43_sample_decode.md R265). -/
theorem interpolate_fraction_zero (c p : Int) : interpolate c p 0 = p := by
  obtain ⟨hlow, hhigh⟩ := interpolate_bounds c p 0
  omega

/-- Settles O32: the weighted mean of two samples lies between them, and so does its floor. -/
theorem interpolationIsBetween : Obligations.InterpolationIsBetween := by
  refine ⟨fun m v => rfl, fun c p f hf => ?between, interpolate_fraction_zero, by decide⟩
  obtain ⟨hlow, hhigh⟩ := interpolate_bounds c p f
  have hmin := mul_le_weightedSum hf.le (min_le_left c p) (min_le_right c p)
  have hmax := weightedSum_le_mul hf.le (le_max_left c p) (le_max_right c p)
  exact ⟨hlow, hhigh, by omega, by omega⟩

/-! ### The previous sample in a tick -/

/-- The integer position of an offset (43_sample_decode.md R260). -/
theorem Voice.spos_toNat (x : Voice) : x.spos.toNat = x.offset.toNat / 4096 := by
  have hint : x.offset.toNat / 2 ^ 12 < 2 ^ 16 := Nat.div_lt_of_lt_mul x.offset.isLt
  rw [Voice.spos, BitVec.extractLsb'_toNat, Nat.shiftRight_eq_div_pow]
  exact Nat.mod_eq_of_lt hint

/-- The previous sample of a playing voice after a tick (43_sample_decode.md R268). -/
theorem Voice.tickState_prev (T : Config.Tables) (m : Memory) (x : Voice) :
    (x.tickState T m).prev = if (x.tickState T m).spos ≠ x.spos then x.decodeSample m x.spos else x.prev := by
  rw [Voice.tickState_eq]
  rfl

/-- Settles O34: two offsets have the same integer position exactly when their 16-bit positions are equal. -/
theorem tickCapturesTheLeftSample : Obligations.TickCapturesTheLeftSample := by
  intro s v hplay
  refine ⟨_, exec_tick s, ?_⟩
  rw [State.tick_voice, Voice.tick_voice _ _ _ hplay]
  dsimp only
  rw [← Voice.spos_toNat, ← Voice.spos_toNat, Voice.tickState_prev, Ne, BitVec.toNat_inj]
  exact ⟨_, rfl, fun hmoved => if_pos hmoved, fun hstayed => if_neg (not_not.mpr hstayed)⟩

end Sys2Proof.Machine

/-! The proofs of the statements of 44_mixer.md about the frame of a tick: the saturated sums, the voices that do not
play, the independence of the voices, and the one frame of each tick. -/

namespace Sys2Proof.Machine

/-! ### The frame of a list of voices -/

/-- A saturated sum reads back as the clamped integer: the output range is that of 16 signed bits (44_mixer.md R300). -/
theorem saturate_toInt (acc : Int) : (saturate acc).toInt = min 32767 (max (-32768) acc) := by
  have hlow : -32768 ≤ min 32767 (max (-32768) acc) := le_min (by decide) (le_max_left ..)
  have hhigh : min 32767 (max (-32768) acc) < 32768 := (min_le_left ..).trans_lt (by decide)
  exact BitVec.toInt_ofInt_eq_self (by decide) hlow hhigh

/-- Leaving out the voices that do not play leaves a sum as it is, when each of them adds 0 (44_mixer.md R305). -/
theorem sum_map_filter_playing {addend : Voice → Int} (hzero : ∀ x : Voice, x.playing = false → addend x = 0)
    (l : List Voice) : ((l.filter fun x => x.playing).map addend).sum = (l.map addend).sum := by
  induction l with
  | nil => rfl
  | cons x l ih =>
    rw [List.map_cons, List.sum_cons, ← ih]
    cases hplay : x.playing with
    | true => rw [List.filter_cons_of_pos hplay, List.map_cons, List.sum_cons]
    | false => rw [List.filter_cons_of_neg (by simp [hplay]), hzero x hplay, Int.zero_add]

section
variable (T : Config.Tables) (m : Memory)

/-- The frame of no voices (44_mixer.md R312). -/
theorem frameOf_nil : frameOf T m [] = { left := 0, right := 0 } := rfl

/-- A frame is made by the playing voices alone (44_mixer.md R305). -/
theorem frameOf_filter_playing (l : List Voice) : frameOf T m (l.filter fun x => x.playing) = frameOf T m l := by
  have hleft (x : Voice) (h : x.playing = false) : (x.tick T m).left = 0 := by rw [Voice.tick_not_playing _ _ _ h]
  have hright (x : Voice) (h : x.playing = false) : (x.tick T m).right = 0 := by rw [Voice.tick_not_playing _ _ _ h]
  rw [frameOf, sum_map_filter_playing hleft, sum_map_filter_playing hright, frameOf]

/-- A frame does not depend on the order of the voices: its sums are sums of exact integers (44_mixer.md R311). -/
theorem frameOf_perm {l l' : List Voice} (h : l.Perm l') : frameOf T m l = frameOf T m l' := by
  rw [frameOf, (h.map _).sum_eq, (h.map _).sum_eq, frameOf]

/-- The frame of a machine in which no voice plays (44_mixer.md R305, R312). -/
theorem frameOf_of_silent {s : State} (h : Silent s) : frameOf T m s.voices.toList = { left := 0, right := 0 } := by
  have hnone : s.voices.toList.filter (fun x => x.playing) = [] := by
    rw [List.filter_eq_nil_iff]
    intro x hx
    obtain ⟨w, rfl⟩ := (s.mem_voices_iff x).mp hx
    rw [h w]
    exact Bool.false_ne_true
  rw [← frameOf_filter_playing, hnone, frameOf_nil]

/-- A release that comes to 0 stops the voice in that tick (41_envelope.md R198). -/
theorem Voice.tick_playing_of_release_ends {x : Voice} (hplay : x.playing = true) (hrelease : x.eg.state = .release)
    (hends : x.eg.vol.toNat ≤ x.eg.rr) : (x.tick T m).voice.playing = false := by
  rw [Voice.tick_voice _ _ _ hplay, Voice.tickState_eq]
  exact if_pos ⟨hrelease, (Envelope.tick_vol_eq_zero_iff_of_release hrelease).mpr hends⟩

end

/-- Only a `TICK` emits a frame (44_mixer.md R312). -/
theorem exec_frames_of_ne_tick {i : Instr} {s t : State} (h : exec i s = .next t) (htick : i ≠ .tick) :
    t.frames = s.frames := by
  obtain ⟨-, -, -, -, -, hsame | ⟨htick', -⟩⟩ := exec_outside h
  · exact hsame
  · exact absurd htick' htick

/-! ### The statements -/

/-- Settles O41: the emitted frame is the saturation of the two sums. -/
theorem frameSaturatesTheSums : Obligations.FrameSaturatesTheSums := fun s =>
  ⟨_, _, exec_tick s, s.tick_frames tables, saturate_toInt _, saturate_toInt _⟩

/-- Settles O42: a silent voice's part of a tick is itself and two zeros, so the playing voices alone make the frame;
`playing` at the start of the tick, not at its end, decides whether a voice adds its sample. -/
theorem silentVoicesTakeNoPart : Obligations.SilentVoicesTakeNoPart := by
  refine ⟨fun s => ⟨_, exec_tick s, fun v hsilent => ?unchanged, ?frame⟩, fun x m m' hsilent => ?addends,
    fun x m hplay hrelease hends => ?releaseEnds⟩
  case unchanged => rw [State.tick_voice, Voice.tick_not_playing _ _ _ hsilent]
  case frame => rw [State.tick_frames, frameOf_filter_playing]
  case addends =>
    rw [Voice.tick_not_playing _ m _ hsilent, Voice.tick_not_playing _ m' _ hsilent]
    exact ⟨rfl, rfl, rfl⟩
  case releaseEnds =>
    have hstops := Voice.tick_playing_of_release_ends tables m hplay hrelease hends
    have hadds := x.tick_addends tables m hplay
    rw [Voice.tick_voice _ _ _ hplay] at hstops ⊢
    exact ⟨x.tickKey tables m, hstops, panKey_toNat _ _, hadds⟩

/-- Settles O44: a voice's part of a tick is a function of the voice and the ROM, and the sums commute. -/
theorem voicesAreIndependent : Obligations.VoicesAreIndependent := by
  refine ⟨fun s s' v hvoice hrom => ⟨_, _, exec_tick s, exec_tick s', ?ownVoice⟩,
    fun s order hperm => ⟨_, exec_tick s, ?frame⟩⟩
  case ownVoice => rw [State.tick_voice, State.tick_voice, hvoice, hrom]
  case frame => rw [State.tick_frames, frameOf_perm _ _ hperm]

/-- Settles O45: a tick emits the frame of all voices, which is silence when none plays. -/
theorem eachTickEmitsOneFrame : Obligations.EachTickEmitsOneFrame :=
  ⟨fun s => ⟨_, _, exec_tick s, s.tick_frames tables, frameOf_of_silent tables s.rom⟩,
    fun _ _ _ hexec htick => exec_frames_of_ne_tick hexec htick⟩

end Sys2Proof.Machine

/-! The proofs of the statements of 70_reset_and_hazards.md about the two events that are no write and no tick: the reset
values, the frame rate of a `CLOCK`, and the silence until a key-on. -/

namespace Sys2Proof.Machine

/-! ### The reset values -/

/-- The clocks of a frame as the rational that divides the input clock (00_scope.md R10). -/
theorem clocksPerFrame_cast : (clocksPerFrame : Rat) = 224 := Nat.cast_ofNat

theorem exec_reset (s : State) : exec .reset s = .next { s with
    selVoice := some 0, selReg := 0, voices := State.reset.voices } := rfl

/-- Every voice at power-on has the reset values (10_state.md R50). -/
theorem State.voice_reset (v : VoiceId) : State.reset.voice v = Voice.reset tables := Vector.getElem_replicate _

/-- A `RESET` gives every voice its value at power-on (70_reset_and_hazards.md R360). -/
theorem exec_reset_voice {s t : State} (h : exec .reset s = .next t) (v : VoiceId) :
    t.voice v = State.reset.voice v := by
  cases h
  rfl

section
variable (T : Config.Tables)

@[simp] theorem Voice.reset_playing : (Voice.reset T).playing = false := rfl

@[simp] theorem Voice.reset_reg (r : Fin 8) : (Voice.reset T).reg r = 0 := Vector.getElem_replicate _

end

/-- Settles O23: `RESET` writes the selects and the voices of power-on, and each of those voices is the record of the
reset values. -/
theorem resetSetsEveryField : Obligations.ResetSetsEveryField := by
  refine ⟨fun s => ⟨_, exec_reset s, rfl, rfl, rfl, rfl, rfl, rfl, rfl⟩, rfl, rfl, ?rate, fun v => ?voice⟩
  case rate => exact congrArg (inputClock / ·) clocksPerFrame_cast
  case voice =>
    rw [State.voice_reset]
    refine ⟨Voice.reset_reg tables, ?fields⟩
    and_intros <;> rfl

/-! ### The frame rate -/

theorem exec_clock (f : Rat) (s : State) : exec (.clock f) s = .next { s with rate := f / 224 } := by
  rw [← clocksPerFrame_cast]
  rfl

theorem exec_wrPitchl_selected {s : State} {v : VoiceId} (data : Byte) (h : s.selVoice = some v) :
    exec (.wrPitchl data) s = .next (s.updateVoice v fun x => x.writePitch tables s.rate 2 data) :=
  congrArg Host.Outcome.next (s.onSelected_some v _ h)

/-- PITCH_UPDATE after a register-2 write reads the new low byte and register 3, and the table of the rate at the time of
the write (40_register_bank.md R156, R160). -/
theorem Voice.writePitch_two_step (T : Config.Tables) (R : Rat) (d : Byte) (x : Voice) :
    (x.writePitch T R 2 d).step = pitchStep (T.freqStep R (pitchFraction d (x.reg 3))) (octave (x.reg 3)) R := by
  have hlow : (x.storeReg 2 d).reg 2 = d := x.reg_storeReg_same 2 d
  have hhigh : (x.storeReg 2 d).reg 3 = x.reg 3 := by rw [Voice.reg_storeReg, if_neg (by decide)]
  rw [Voice.writePitch_eq, Voice.pitchUpdate_eq, hlow, hhigh]

/-- Settles O24: a `CLOCK` writes the rate alone, so a pitch write after it finds the same voice selected with the same
registers, and the new rate. -/
theorem clockChangesOnlyTheRate : Obligations.ClockChangesOnlyTheRate := by
  refine fun s f => ⟨_, exec_clock f s, rfl, div_mul_cancel₀ f (by decide), fun v d hsel => ?nextPitchWrite⟩
  case nextPitchWrite =>
    refine ⟨_, exec_wrPitchl_selected d hsel, ?_⟩
    rw [State.updateVoice_voice_same, Voice.writePitch_two_step]
    rfl

/-! ### What starts and stops a voice -/

/-- Neither the load of the header nor a retrigger changes whether the voice plays (40_register_bank.md R152, R170). -/
theorem Voice.writeSample_playing (T : Config.Tables) (m : Memory) (d : Byte) (x : Voice) :
    (x.writeSample T m d).playing = x.playing := by
  rw [Voice.writeSample_eq]
  split
  · rw [Voice.retrigger_eq, Voice.sampleLoaded_playing]
  · exact x.sampleLoaded_playing T m d

theorem Voice.writeLfoReg_playing (T : Config.Tables) (r : Fin 8) (d : Byte) (x : Voice) :
    (x.writeLfoReg T r d).playing = x.playing := by
  rw [Voice.writeLfoReg_eq]

/-- A register operation keeps `playing`, but for a key-on and for a key-off with the instant-release code
(10_state.md R43). -/
theorem RegisterOp.playing_cases {m : Memory} {R : Rat} {i : Instr} {x y : Voice} (h : RegisterOp m R i x y) :
    y.playing = x.playing ∨ ((∃ d, i = .wrKeyon d) ∧ y.playing = true) ∨
      ((∃ d, i = .wrKeyoff d) ∧ x.smp.rr = instantRelease ∧ y.playing = false) := by
  rcases h with ⟨d, rfl, rfl⟩ | ⟨d, rfl, rfl⟩ | ⟨d, rfl, rfl⟩ | ⟨d, rfl, rfl⟩ | ⟨d, rfl, rfl⟩ | ⟨d, rfl, rfl⟩ |
    ⟨d, rfl, rfl⟩ | ⟨d, rfl, rfl⟩ | ⟨d, rfl, rfl⟩ | ⟨d, rfl, rfl⟩
  · exact .inl rfl
  · exact .inl (x.writeSample_playing tables m d)
  · exact .inl rfl
  · exact .inl rfl
  · rw [Voice.writeKeyoff_eq]
    by_cases hinstant : x.smp.rr = instantRelease
    · exact .inr (.inr ⟨⟨d, rfl⟩, hinstant, if_pos hinstant⟩)
    · exact .inl (if_neg hinstant)
  · exact .inr (.inl ⟨⟨d, rfl⟩, rfl⟩)
  · exact .inl rfl
  · exact .inl rfl
  · exact .inl (x.writeLfoReg_playing tables 6 d)
  · exact .inl (x.writeLfoReg_playing tables 7 d)

/-- A voice that does not play starts at a key-on alone (10_state.md R43). -/
theorem exec_keeps_not_playing {i : Instr} {s t : State} (h : exec i s = .next t) (hkey : ∀ d, i ≠ .wrKeyon d)
    {v : VoiceId} (hstill : (s.voice v).playing = false) : (t.voice v).playing = false := by
  rcases exec_voice h v with hsame | ⟨-, hop⟩ | ⟨-, htick⟩ | ⟨-, hreset⟩
  · rw [hsame, hstill]
  · rcases hop.playing_cases with hkept | ⟨⟨d, hkeyon⟩, -⟩ | ⟨-, -, hstopped⟩
    · rw [hkept, hstill]
    · exact absurd hkeyon (hkey d)
    · exact hstopped
  · rw [htick, Voice.tick_not_playing _ _ _ hstill, hstill]
  · rw [hreset, Voice.reset_playing]

/-! ### Silence -/

/-- No operation faults or is refused (60_exceptions.md R330). -/
theorem exists_exec_next (i : Instr) (s : State) : ∃ t, exec i s = .next t := by
  cases i <;> exact ⟨_, rfl⟩

/-- No voice plays after a `RESET` (70_reset_and_hazards.md R361). -/
theorem silent_of_exec_reset {s t : State} (h : exec .reset s = .next t) : Silent t := fun v => by
  rw [exec_reset_voice h, State.voice_reset, Voice.reset_playing]

/-- Settles O25: `RESET` reads no ROM byte and stops every voice; after that only a key-on starts one, and the frame of
a machine in which none plays is `(0, 0)`. -/
theorem silentUntilKeyon : Obligations.SilentUntilKeyon := by
  refine ⟨fun s => ⟨_, exec_reset s, silent_of_exec_reset (exec_reset s), rfl, fun m => exec_reset { s with rom := m }⟩,
    fun s i hsilent hkey => ?step⟩
  case step =>
    obtain ⟨t, hexec⟩ := exists_exec_next i s
    refine ⟨t, hexec, fun v => exec_keeps_not_playing hexec hkey (hsilent v), ?frame⟩
    case frame =>
      rintro rfl
      cases hexec
      rw [State.tick_frames, frameOf_of_silent _ _ hsilent]

end Sys2Proof.Machine

/-! The proofs of the statements of 30_encoding.md and 60_exceptions.md about the decoder and the step: the two round trips
of the encoding, the operation a step and a placed word run, and the completion of every event. -/

namespace Sys2Proof.Machine

/-! ### The round trips -/

/-- Register 4 with data bit 7 clear is a key-off (30_encoding.md R105). -/
theorem decodeRegisterWrite_four_of_clear {data : Byte} (h : (Instr.wrKeyoff data).wellFormed = true) :
    decodeRegisterWrite 4 data = .wrKeyoff data :=
  if_neg (Bool.eq_false_iff.mp ((Bool.not_eq_true' _).mp h))

/-- Register 4 with data bit 7 set is a key-on (30_encoding.md R105). -/
theorem decodeRegisterWrite_four_of_set {data : Byte} (h : (Instr.wrKeyon data).wellFormed = true) :
    decodeRegisterWrite 4 data = .wrKeyon data := if_pos h

/-- Register 5 with data bit 0 clear starts a ramp (30_encoding.md R105). -/
theorem decodeRegisterWrite_five_of_clear {data : Byte} (h : (Instr.wrTlramp data).wellFormed = true) :
    decodeRegisterWrite 5 data = .wrTlramp data :=
  if_neg (Bool.eq_false_iff.mp ((Bool.not_eq_true' _).mp h))

/-- Register 5 with data bit 0 set sets the level (30_encoding.md R105). -/
theorem decodeRegisterWrite_five_of_set {data : Byte} (h : (Instr.wrTlset data).wellFormed = true) :
    decodeRegisterWrite 5 data = .wrTlset data := if_pos h

/-- A port-0 write with a voice selected decodes to the selected register's operation (30_encoding.md R105). -/
theorem decode_write_selected (sel : BitVec 3) (data : Byte) :
    decode true sel (.write 0 data) = .ok (decodeRegisterWrite sel data) := decode_write true sel 0 data

/-- A `CLOCK` of the spec decodes to itself (00_scope.md R10). -/
theorem decode_clock_of_pos (valid : Bool) (sel : BitVec 3) {f : Rat} (h : 0 < f) :
    decode valid sel (.clock f) = .ok (.clock f) := if_pos h

/-- A `CLOCK` that is not positive is refused at decoding (log entry 8). -/
theorem decode_clock_of_not_pos (valid : Bool) (sel : BitVec 3) {f : Rat} (h : ¬ 0 < f) :
    decode valid sel (.clock f) = .error .clockNotPositive := if_neg h

/-- Settles O1: the port and the two fixed state inputs lead back to the row, and in registers 4 and 5 so does the data
bit that the row fixes. -/
theorem decodeInvertsEncode : Obligations.DecodeInvertsEncode := by
  intro i hwf valid sel
  cases i with
  | wrNovoice data => exact decode_write false sel 0 data
  | wrPan data => exact decode_write_selected 0 data
  | wrSample data => exact decode_write_selected 1 data
  | wrPitchl data => exact decode_write_selected 2 data
  | wrPitchh data => exact decode_write_selected 3 data
  | wrKeyoff data => exact (decode_write_selected 4 data).trans (congrArg _ (decodeRegisterWrite_four_of_clear hwf))
  | wrKeyon data => exact (decode_write_selected 4 data).trans (congrArg _ (decodeRegisterWrite_four_of_set hwf))
  | wrTlramp data => exact (decode_write_selected 5 data).trans (congrArg _ (decodeRegisterWrite_five_of_clear hwf))
  | wrTlset data => exact (decode_write_selected 5 data).trans (congrArg _ (decodeRegisterWrite_five_of_set hwf))
  | wrLfo data => exact decode_write_selected 6 data
  | wrAm data => exact decode_write_selected 7 data
  | selv data => exact decode_write valid sel 1 data
  | selr data => exact decode_write valid sel 2 data
  | rsvdP3 data => exact decode_write valid sel 3 data
  | tick => rfl
  | reset => rfl
  | clock f => exact decode_clock_of_pos valid sel (of_decide_eq_true hwf)

/-- An operation whose key is made of two state inputs fixes neither to another value (30_encoding.md R104). -/
theorem HasKey.keeps_inputs {i : Instr} {valid : Bool} {sel : BitVec 3} {port : Port} {data : Byte}
    (h : HasKey i valid sel (decodeKeyOf valid sel port data)) : i.keyValid valid = valid ∧ i.keySel sel = sel := by
  obtain ⟨-, hkey⟩ := h
  unfold encodeKey at hkey
  split at hkey
  next p d _ =>
    have hkeys := Option.some.inj hkey
    exact ⟨by simpa only [voiceValid_decodeKeyOf] using congrArg DecodeKey.voiceValid hkeys,
      by simpa only [selReg_decodeKeyOf] using congrArg DecodeKey.selReg hkeys⟩
  all_goals cases hkey

/-- A decoded operation is well-formed, and its row fixes neither state input to another value (30_encoding.md R105). -/
theorem wellFormed_and_inputs_of_decode {valid : Bool} {sel : BitVec 3} {e : Event} {i : Instr}
    (h : decode valid sel e = .ok i) : i.wellFormed = true ∧ i.keyValid valid = valid ∧ i.keySel sel = sel := by
  cases e with
  | write port data =>
    cases h
    have hkey := hasKey_decodeKey (decodeKeyOf valid sel port data)
    rw [voiceValid_decodeKeyOf, selReg_decodeKeyOf] at hkey
    exact ⟨hkey.left, hkey.keeps_inputs⟩
  | tick => cases h; exact ⟨rfl, rfl, rfl⟩
  | reset => cases h; exact ⟨rfl, rfl, rfl⟩
  | clock f =>
    rw [decode] at h
    split at h <;> cases h
    next hpos => exact ⟨decide_eq_true hpos, rfl, rfl⟩

/-- Settles O2: the key of a decoded operation is the key it was decoded from, so no bit of it is lost. -/
theorem encodeInvertsDecode : Obligations.EncodeInvertsDecode := by
  intro valid sel e i h
  obtain ⟨hwf, hvalid, hsel⟩ := wellFormed_and_inputs_of_decode h
  exact ⟨hwf, encode_of_decode h, hvalid, hsel⟩

/-! ### The step -/

/-- A step is `exec` of the operation its next event decodes to. -/
theorem step_of_decode {s : State} {i : Instr} (h : decode s.voiceValid s.selReg s.nextEvent = .ok i) :
    step s = exec i s.popEvent := by
  rw [step, h]

/-- Every event of the spec decodes to an operation (30_encoding.md R121). -/
theorem exists_decode_of_wellFormed (valid : Bool) (sel : BitVec 3) {e : Event} (h : e.wellFormed = true) :
    ∃ i, decode valid sel e = .ok i := by
  cases e with
  | write port data => exact ⟨_, decode_write_eq_decodeKey valid sel port data⟩
  | tick => exact ⟨.tick, rfl⟩
  | reset => exact ⟨.reset, rfl⟩
  | clock f => exact ⟨_, decode_clock_of_pos valid sel (of_decide_eq_true h)⟩

/-- Settles O7: an event of the spec decodes to an operation, and no operation stops. -/
theorem everyEventCompletes : Obligations.EveryEventCompletes := by
  intro s hwf
  obtain ⟨i, hdecode⟩ := exists_decode_of_wellFormed s.voiceValid s.selReg hwf
  rw [step_of_decode hdecode]
  exact exists_exec_next i s.popEvent

/-- Settles O4: each clause is one branch of the next event, of the decoder or of the step. -/
theorem stepRunsTheDecodedOperation : Obligations.StepRunsTheDecodedOperation := by
  refine ⟨fun s i hdecode => step_of_decode hdecode, fun s e rest hpending => ?first, fun s hpending => ?empty,
    fun s f hnext hneg => ?refused⟩
  case first => rw [State.nextEvent, hpending]
  case empty => rw [State.nextEvent, hpending]
  case refused => rw [step, hnext, decode_clock_of_not_pos _ _ hneg]

/-! ### Placed words -/

/-- Bits 12:10 of a key given as a number (30_encoding.md R104). -/
theorem DecodeKey.selReg_ofNat_toNat {w : Nat} (h : w < 2 ^ 14) :
    (DecodeKey.selReg (BitVec.ofNat 14 w)).toNat = w / 1024 % 8 := by
  rw [DecodeKey.selReg, BitVec.extractLsb'_toNat, BitVec.toNat_ofNat, Nat.mod_eq_of_lt h, Nat.shiftRight_eq_div_pow]

/-- Bit 13 of a key given as a number (30_encoding.md R104). -/
theorem DecodeKey.voiceValid_ofNat (w : Nat) : DecodeKey.voiceValid (BitVec.ofNat 14 w) = w.testBit 13 := by
  rw [DecodeKey.voiceValid, BitVec.getLsbD_ofNat]
  rfl

/-- The state with a key placed has the key's bit 13 as its state input (30_encoding.md R103). -/
theorem State.placeKey_voiceValid (s : State) (k : DecodeKey) : (s.placeKey k).voiceValid = k.voiceValid := by
  rw [State.voiceValid, State.placeKey]
  cases k.voiceValid <;> rfl

/-- The next step from a state with a key placed runs that key's operation (log entry 5). -/
theorem step_placeKey (s : State) (k : DecodeKey) :
    step (s.placeKey k) = exec (decodeKey k) { s.placeKey k with pending := s.pending } := by
  have hkey : decodeKeyOf (s.placeKey k).voiceValid (s.placeKey k).selReg k.port k.data = k := by
    rw [State.placeKey_voiceValid]
    exact decodeKeyOf_fields k
  rw [step_write (s := s.placeKey k) rfl, hkey]

theorem decodeTableWord_of_lt {nbits w : Nat} (hbits : nbits ≠ 0) (hw : w < 2 ^ 14) :
    decodeTableWord nbits w = some (decodeKey (BitVec.ofNat 14 w)) := by
  rw [decodeTableWord, if_neg hbits, if_pos hw]

theorem State.withFetchWord_of_lt (s : State) {nbits w : Nat} (hbits : nbits ≠ 0) (hw : w < 2 ^ 14) :
    s.withFetchWord nbits w = s.placeKey (BitVec.ofNat 14 w) := by
  rw [State.withFetchWord, if_neg hbits, if_pos hw]

/-- Settles O5: the placed key is put together again by the step, from its bus word and its two state inputs. -/
theorem placedWordRuns : Obligations.PlacedWordRuns := by
  intro s nbits w hbits hw
  refine ⟨_, { s.placeKey (BitVec.ofNat 14 w) with pending := s.pending }, decodeTableWord_of_lt hbits hw, ?step, rfl, rfl,
    rfl, rfl, rfl, DecodeKey.selReg_ofNat_toNat hw, ?valid⟩
  case step => rw [State.withFetchWord_of_lt s hbits hw, step_placeKey]
  case valid => exact (s.placeKey_voiceValid _).trans (DecodeKey.voiceValid_ofNat w)

/-- Settles O6: each of the sixteen keys is a closed word, and the decoder is evaluated on it. -/
theorem specKeysDecode : Obligations.SpecKeysDecode := by
  unfold Obligations.SpecKeysDecode
  and_intros <;> decide

end Sys2Proof.Machine

/-! The proofs of the statements of 40_register_bank.md on the port-0 writes to a selected voice: what each register write
stores, which fields of the voice it changes, and that it changes no other voice. -/

namespace Sys2Proof.Machine

/-! ### The fields of the register bytes -/

/-- The destination level is the byte's high seven bits (30_encoding.md R115). -/
theorem destLevel_toNat (data : Byte) : (destLevel data).toNat = data.toNat / 2 := by
  have hdata : data.toNat < 256 := data.isLt
  rw [destLevel, BitVec.extractLsb'_toNat, Nat.shiftRight_eq_div_pow]
  omega

/-- A destination level is stored as it is: it fits in the bits of a total level (10_state.md R44). -/
theorem storeTl_destValue_toNat (level : BitVec 7) : (storeTl (destValue level)).toNat = level.toNat * 4096 := by
  have hlevel : level.toNat < 128 := level.isLt
  have hfit : level.toNat * 4096 < 2 ^ 19 := by omega
  rw [storeTl, BitVec.ofInt_natCast, BitVec.toNat_ofNat]
  exact Nat.mod_eq_of_lt hfit

/-- The sample index is register 2's low bit above register 1 (30_encoding.md R118). -/
theorem sampleIndex_toNat (reg1 reg2 : Byte) :
    (sampleIndex reg1 reg2).toNat = 256 * (reg2.toNat % 2) + reg1.toNat := by
  rw [sampleIndex, append_toNat, BitVec.extractLsb'_toNat, Nat.shiftRight_zero, Nat.mul_comm]
  rfl

/-- The threshold code never wraps (41_envelope.md R194). -/
theorem thresholdCode_toNat (dl : BitVec 4) : (thresholdCode dl).toNat = 15 - dl.toNat :=
  BitVec.toNat_sub_of_le (Nat.le_of_lt_succ dl.isLt)

/-- The header's amplitude nibble as a byte is 0 exactly where the nibble is (40_register_bank.md R152). -/
theorem lfoAmp_setWidth_eq_zero_iff (amp : BitVec 4) : amp.setWidth 8 = 0 ↔ amp = 0 := by
  revert amp
  decide

/-- The depth of the header's amplitude nibble (30_encoding.md R117). -/
theorem ampDepth_setWidth (amp : BitVec 4) : ampDepth (amp.setWidth 8) = amp.extractLsb' 0 3 := by
  revert amp
  decide

/-! ### The registers after a write -/

/-- A register is read from the voice's registers alone. -/
theorem Voice.reg_congr {x y : Voice} (h : y.regs = x.regs) (q : Fin 8) : y.reg q = x.reg q := by
  rw [Voice.reg, h, Voice.reg]

section
variable (T : Config.Tables) (m : Memory) (R : Rat) (d : Byte) (x : Voice)

theorem Voice.writeKeyoff_regs : (x.writeKeyoff d).regs = (x.storeReg 4 d).regs := by
  rw [Voice.writeKeyoff_eq]
  rfl

theorem Voice.writeLfoReg_regs (r : Fin 8) : (x.writeLfoReg T r d).regs = (x.storeReg r d).regs := by
  rw [Voice.writeLfoReg_eq]
  rfl

/-- Every port-0 write but a register-1 write stores its byte in its own register and no other (40_register_bank.md
R145). -/
theorem Voice.apply_regs {sel : BitVec 3} {r : Fin 8} (hsel : sel.toNat = r.val) (hr : r ≠ 1) :
    (x.apply T m R sel d).regs = (x.storeReg r d).regs := by
  unfold Voice.apply
  rw [hsel]
  match r with
  | 0 => rfl
  | 1 => exact absurd rfl hr
  | 2 => rfl
  | 3 => rfl
  | 4 =>
    show (if d.getLsbD 7 then x.writeKeyon T d else x.writeKeyoff d).regs = _
    split
    · rfl
    · exact x.writeKeyoff_regs d
  | 5 =>
    show (if d.getLsbD 0 then x.writeTlset d else x.writeTlramp T d).regs = _
    split <;> rfl
  | 6 => exact x.writeLfoReg_regs T d 6
  | 7 => exact x.writeLfoReg_regs T d 7

end

/-! ### The load of a header -/

/-- The rates and the threshold depend on the metadata and register 3 alone (41_envelope.md R192). -/
theorem Voice.egRecalc_eg_congr (T : Config.Tables) {x y : Voice} (hsmp : y.smp = x.smp) (hreg : y.reg 3 = x.reg 3)
    (heg : y.eg = x.eg) : (y.egRecalc T).eg = (x.egRecalc T).eg := by
  simp only [Voice.egRecalc_eq, hsmp, hreg, heg]

/-- `EG_RECALC` changes the envelope alone (41_envelope.md R192). -/
theorem Voice.egRecalc_eq_with_eg (T : Config.Tables) (x : Voice) :
    x.egRecalc T = { x with eg := (x.egRecalc T).eg } := rfl

/-- A retrigger of a voice whose rates are recomputed keeps the rates (40_register_bank.md R170). -/
theorem Voice.retrigger_of_egRecalc {T : Config.Tables} {x : Voice} (h : x.egRecalc T = x) :
    x.retrigger T = { x with
      offset := 0, prev := 0, tl := storeTl (destValue x.destTl), eg := { x.eg with state := .attack, vol := 0 } } := by
  rw [Voice.retrigger_eq, h]

section
variable (T : Config.Tables) (m : Memory) (vib amp d : Byte) (x : Voice)

/-- The writes of a header's two LFO bytes to registers 6 and 7 (40_register_bank.md R152). -/
def Voice.lfoCascade : Voice := (x.writeLfoReg T 6 vib).writeLfoReg T 7 amp

/-- The cascade changes registers 6 and 7 and the two LFO units (40_register_bank.md R152). -/
theorem Voice.lfoCascade_frame : x.lfoCascade T vib amp = { x with
    regs := (x.regs.set 6 vib).set 7 amp
    plfo := (x.lfoCascade T vib amp).plfo
    alfo := (x.lfoCascade T vib amp).alfo } := by
  simp only [Voice.lfoCascade, Voice.writeLfoReg_eq]
  rfl

/-- The LFO units after the cascade of a register-1 write do not depend on the byte and the metadata it stored first
(42_lfo.md R230). -/
theorem Voice.lfoCascade_storeReg_one (smp : Sample) :
    (Voice.lfoCascade T vib amp { x.storeReg 1 d with smp := smp }).plfo = (x.lfoCascade T vib amp).plfo ∧
      (Voice.lfoCascade T vib amp { x.storeReg 1 d with smp := smp }).alfo = (x.lfoCascade T vib amp).alfo := by
  obtain ⟨-, -, hplfo, halfo⟩ := ((x.sameLfo_storeReg_one d smp).writeLfoReg T 6 vib).writeLfoReg T 7 amp
  exact ⟨hplfo, halfo⟩

/-- The registers that a register-1 write stores: its own byte and the header's two LFO bytes (40_register_bank.md
R152). -/
def Voice.loadedRegs : Vector Byte 8 := ((x.regs.set 1 d).set 6 vib).set 7 amp

/-- Reading a register of a voice that holds the registers of a register-1 write. -/
theorem Voice.reg_of_loadedRegs {y : Voice} (h : y.regs = x.loadedRegs vib amp d) (q : Fin 8) :
    y.reg q = if q = 7 then amp else if q = 6 then vib else if q = 1 then d else x.reg q := by
  have hstores : y.reg q = (((x.storeReg 1 d).storeReg 6 vib).storeReg 7 amp).reg q := Voice.reg_congr h q
  rw [hstores, Voice.reg_storeReg, Voice.reg_storeReg, Voice.reg_storeReg]

/-- The voice after the load of a register-1 write, as one update of the voice before it: the rates are those of the new
metadata (40_register_bank.md R152). -/
theorem Voice.sampleLoaded_update :
    let smp := headerDecode m (sampleIndex d (x.reg 2))
    let cascaded := x.lfoCascade T smp.lfoVib (smp.lfoAmp.setWidth 8)
    x.sampleLoaded T m d = { x with
      regs := x.loadedRegs smp.lfoVib (smp.lfoAmp.setWidth 8) d
      smp := smp
      base := smp.start
      format := smp.format
      eg := (Voice.egRecalc T { x with smp := smp }).eg
      plfo := cascaded.plfo
      alfo := cascaded.alfo } := by
  intro smp cascaded
  obtain ⟨hplfo, halfo⟩ := x.lfoCascade_storeReg_one T smp.lfoVib (smp.lfoAmp.setWidth 8) d smp
  have hframe := Voice.lfoCascade_frame T smp.lfoVib (smp.lfoAmp.setWidth 8) { x.storeReg 1 d with smp := smp }
  rw [hplfo, halfo] at hframe
  have hloaded : x.sampleLoaded T m d = Voice.egRecalc T
      { Voice.lfoCascade T smp.lfoVib (smp.lfoAmp.setWidth 8) { x.storeReg 1 d with smp := smp } with
        base := smp.start, format := smp.format } := rfl
  rw [hloaded, hframe, Voice.egRecalc_eq_with_eg]
  congr 1
  exact Voice.egRecalc_eg_congr T (x := { x with smp := smp }) rfl (x.reg_of_loadedRegs _ _ d rfl 3) rfl

/-- The load of a header recomputes the rates last (40_register_bank.md R152). -/
theorem Voice.sampleLoaded_egRecalc : (x.sampleLoaded T m d).egRecalc T = x.sampleLoaded T m d := rfl

/-- The voice after a register-1 write, as one update of the voice before it: a voice that plays also starts again
(40_register_bank.md R152, R170). -/
theorem Voice.writeSample_update :
    let smp := headerDecode m (sampleIndex d (x.reg 2))
    let cascaded := x.lfoCascade T smp.lfoVib (smp.lfoAmp.setWidth 8)
    x.writeSample T m d = { x with
      regs := x.loadedRegs smp.lfoVib (smp.lfoAmp.setWidth 8) d
      smp := smp
      base := smp.start
      format := smp.format
      offset := if x.playing then 0 else x.offset
      prev := if x.playing then 0 else x.prev
      tl := if x.playing then storeTl (destValue x.destTl) else x.tl
      eg := { (Voice.egRecalc T { x with smp := smp }).eg with
        state := if x.playing then .attack else x.eg.state
        vol := if x.playing then 0 else x.eg.vol }
      plfo := cascaded.plfo
      alfo := cascaded.alfo } := by
  intro smp cascaded
  rw [Voice.writeSample_eq, Voice.retrigger_of_egRecalc (x.sampleLoaded_egRecalc T m d), Voice.sampleLoaded_update]
  cases x.playing <;> rfl

/-- A register-1 write stores registers 1, 6 and 7 (40_register_bank.md R152). -/
theorem Voice.writeSample_regs :
    let smp := headerDecode m (sampleIndex d (x.reg 2))
    (x.writeSample T m d).regs = x.loadedRegs smp.lfoVib (smp.lfoAmp.setWidth 8) d :=
  congrArg Voice.regs (x.writeSample_update T m d)

/-- The phases after the cascade (42_lfo.md R221). -/
theorem Voice.lfoCascade_phase :
    (x.lfoCascade T vib amp).plfo.phase = x.plfo.phase ∧ (x.lfoCascade T vib amp).alfo.phase = x.alfo.phase := by
  rw [Voice.lfoCascade, (Voice.writeLfoReg_phase ..).left, (Voice.writeLfoReg_phase ..).right]
  exact x.writeLfoReg_phase T 6 vib

/-- A zero byte is stored and recomputes nothing (40_register_bank.md R168, R169). -/
theorem Voice.writeLfoReg_zero (r : Fin 8) : x.writeLfoReg T r 0 = x.storeReg r 0 := by
  rw [Voice.writeLfoReg]
  exact if_neg (not_not.mpr rfl)

/-- A nonzero byte is stored and recomputes both units (40_register_bank.md R168, R169). -/
theorem Voice.writeLfoReg_of_ne_zero (r : Fin 8) {d : Byte} (h : d ≠ 0) :
    x.writeLfoReg T r d = (x.storeReg r d).lfoRecompute T := if_pos h

/-- Two zero LFO bytes leave both units as they are (40_register_bank.md R152). -/
theorem Voice.lfoCascade_zero :
    (x.lfoCascade T 0 0).plfo = x.plfo ∧ (x.lfoCascade T 0 0).alfo = x.alfo := by
  rw [Voice.lfoCascade, Voice.writeLfoReg_zero, Voice.writeLfoReg_zero]
  exact ⟨rfl, rfl⟩

/-- A nonzero amplitude byte recomputes both units last, from the new registers 6 and 7 (40_register_bank.md R152). -/
theorem Voice.lfoCascade_of_amp_ne_zero (h : amp ≠ 0) :
    let y := x.lfoCascade T vib amp
    y.plfo.pstep = phaseStep T (lfoFrequency vib) ∧ y.alfo.pstep = phaseStep T (lfoFrequency vib) ∧
      y.plfo.depth = pitchDepth vib ∧ y.alfo.depth = ampDepth amp := by
  intro y
  have hreg6 : ((x.writeLfoReg T 6 vib).storeReg 7 amp).reg 6 = vib := by
    rw [Voice.reg_storeReg, if_neg (by decide), Voice.reg_writeLfoReg, if_pos rfl]
  have hy : y = ((x.writeLfoReg T 6 vib).storeReg 7 amp).lfoRecompute T := Voice.writeLfoReg_of_ne_zero T _ 7 h
  rw [hy, Voice.lfoRecompute_eq, hreg6, Voice.reg_storeReg_same]
  exact ⟨rfl, rfl, rfl, rfl⟩

/-- With a zero amplitude byte a nonzero vibrato byte recomputes both units, from the new register 6 and the old register
7 (40_register_bank.md R152). -/
theorem Voice.lfoCascade_of_vib_ne_zero (h : vib ≠ 0) :
    let y := x.lfoCascade T vib 0
    y.plfo.pstep = phaseStep T (lfoFrequency vib) ∧ y.alfo.pstep = phaseStep T (lfoFrequency vib) ∧
      y.plfo.depth = pitchDepth vib ∧ y.alfo.depth = ampDepth (x.reg 7) := by
  intro y
  have hreg7 : (x.storeReg 6 vib).reg 7 = x.reg 7 := x.reg_storeReg 6 7 vib
  have hy : y = ((x.storeReg 6 vib).lfoRecompute T).storeReg 7 0 := by
    rw [← Voice.writeLfoReg_of_ne_zero T x 6 h, ← Voice.writeLfoReg_zero T]
    rfl
  rw [hy, Voice.lfoRecompute_eq, hreg7, Voice.reg_storeReg_same]
  exact ⟨rfl, rfl, rfl, rfl⟩

end

/-! ### One meaning each for `exec` -/

theorem exec_wrPitchh_selected {s : State} {v : VoiceId} (data : Byte) (h : s.selVoice = some v) :
    exec (.wrPitchh data) s = .next (s.updateVoice v fun x => x.writePitch tables s.rate 3 data) :=
  congrArg Host.Outcome.next (s.onSelected_some v _ h)

theorem exec_wrTlramp_selected {s : State} {v : VoiceId} (data : Byte) (h : s.selVoice = some v) :
    exec (.wrTlramp data) s = .next (s.updateVoice v fun x => x.writeTlramp tables data) :=
  congrArg Host.Outcome.next (s.onSelected_some v _ h)

theorem exec_wrTlset_selected {s : State} {v : VoiceId} (data : Byte) (h : s.selVoice = some v) :
    exec (.wrTlset data) s = .next (s.updateVoice v fun x => x.writeTlset data) :=
  congrArg Host.Outcome.next (s.onSelected_some v _ h)

/-- Register 4: the data bit that tells key-on from key-off for the decoder tells them apart for APPLY
(40_register_bank.md R162, R163). -/
theorem exec_decodeRegisterWrite_four (data : Byte) (s : State) :
    exec (decodeRegisterWrite 4 data) s = .next (s.onSelected fun x => x.apply tables s.rom s.rate 4 data) := by
  show exec (if data.getLsbD 7 then .wrKeyon data else .wrKeyoff data) s =
    .next (s.onSelected fun x => if data.getLsbD 7 then x.writeKeyon tables data else x.writeKeyoff data)
  split <;> rfl

/-- Register 5: the data bit that tells setting the level from ramping to it for the decoder tells them apart for APPLY
(40_register_bank.md R165, R166). -/
theorem exec_decodeRegisterWrite_five (data : Byte) (s : State) :
    exec (decodeRegisterWrite 5 data) s = .next (s.onSelected fun x => x.apply tables s.rom s.rate 5 data) := by
  show exec (if data.getLsbD 0 then .wrTlset data else .wrTlramp data) s =
    .next (s.onSelected fun x => if data.getLsbD 0 then x.writeTlset data else x.writeTlramp tables data)
  split <;> rfl

/-- The operation decoded from a port-0 write is APPLY of the selected register (40_register_bank.md R145). -/
theorem exec_decodeRegisterWrite (sel : BitVec 3) (data : Byte) (s : State) :
    exec (decodeRegisterWrite sel data) s = .next (s.onSelected fun x => x.apply tables s.rom s.rate sel data) := by
  have hsel : sel = 0 ∨ sel = 1 ∨ sel = 2 ∨ sel = 3 ∨ sel = 4 ∨ sel = 5 ∨ sel = 6 ∨ sel = 7 := by
    revert sel; decide
  rcases hsel with rfl | rfl | rfl | rfl | rfl | rfl | rfl | rfl
  exacts [rfl, rfl, rfl, rfl, exec_decodeRegisterWrite_four data s, exec_decodeRegisterWrite_five data s, rfl, rfl]

/-! ### The port-0 write -/

/-- A step with a port-0 write and a voice selected applies the write to that voice (40_register_bank.md R145). -/
theorem step_write_port_zero_selected {s : State} {v : VoiceId} {data : Byte} {rest : List Event}
    (hsel : s.selVoice = some v) (h : s.pending = .write 0 data :: rest) :
    step s = .next (State.updateVoice { s with pending := rest } v
      fun x => x.apply tables s.rom s.rate s.selReg data) := by
  have hvalid : s.voiceValid = true := by rw [State.voiceValid, hsel, Option.isSome_some]
  rw [step_write h, hvalid, decodeKey_port_zero_selected, exec_decodeRegisterWrite]
  exact congrArg Host.Outcome.next (State.onSelected_some _ v _ hsel)

/-- A port-0 write keeps every register but its own, and a register-1 write also stores registers 6 and 7
(40_register_bank.md R145, R152). -/
theorem Voice.reg_apply {sel : BitVec 3} {r : Fin 8} (hsel : sel.toNat = r.val) (T : Config.Tables) (m : Memory)
    (R : Rat) (d : Byte) (x : Voice) :
    (x.apply T m R sel d).reg r = d ∧
      ∀ q : Fin 8, q ≠ r → (r ≠ 1 ∨ (q ≠ 6 ∧ q ≠ 7)) → (x.apply T m R sel d).reg q = x.reg q := by
  by_cases hr : r = 1
  · subst hr
    have hsel1 : sel = 1 := BitVec.eq_of_toNat_eq hsel
    have hregs : (x.apply T m R sel d).regs = (x.writeSample T m d).regs := by
      rw [hsel1]
      rfl
    rw [Voice.writeSample_regs] at hregs
    refine ⟨Voice.reg_of_loadedRegs _ _ _ x hregs 1, fun q hq hother => ?_⟩
    obtain ⟨h6, h7⟩ := hother.resolve_left (not_not.mpr rfl)
    rw [Voice.reg_of_loadedRegs _ _ _ x hregs, if_neg h7, if_neg h6, if_neg hq]
  · have hreg (q : Fin 8) : (x.apply T m R sel d).reg q = if q = r then d else x.reg q :=
      (Voice.reg_congr (x.apply_regs T m R d hsel hr) q).trans (x.reg_storeReg r q d)
    exact ⟨(hreg r).trans (if_pos rfl), fun q hq _ => (hreg q).trans (if_neg hq)⟩

/-- Settles O13: the step updates the selected voice by APPLY, which stores the byte in the selected register. -/
theorem dataWriteStoresTheByte : Obligations.DataWriteStoresTheByte := by
  intro s v d rest r hsel hpending hreg
  refine ⟨_, step_write_port_zero_selected hsel hpending, onlyVoiceDiffers_updateVoice _ v _, ?_⟩
  rw [State.updateVoice_voice_same]
  exact ⟨rfl, Voice.reg_apply hreg tables s.rom s.rate d (s.voice v)⟩

/-- Settles O12: each register operation acts on the selected voice alone, and there is none. -/
theorem registerWritesNeedAVoice : Obligations.RegisterWritesNeedAVoice := by
  intro s d hnone
  have hidle (f : Voice → Voice) : Host.Outcome.next (φ := Fault) (ρ := Refusal) (s.onSelected f) = .next s :=
    congrArg Host.Outcome.next (s.onSelected_none f hnone)
  exact ⟨hidle _, hidle _, hidle _, hidle _, hidle _, hidle _, hidle _, hidle _, hidle _, hidle _⟩

/-! ### The register operations -/

/-- Settles O15: the clauses are the fields of the updated voice, and the LFO units are those the cascade leaves. -/
theorem wrSampleLoadsTheHeader : Obligations.WrSampleLoadsTheHeader := by
  intro s v data hsel
  refine ⟨_, exec_wrSample_selected data hsel, onlyVoiceDiffers_updateVoice s v _,
    sampleIndex data ((s.voice v).reg 2), sampleIndex_toNat _ _, ?_⟩
  rw [State.updateVoice_voice_same]
  generalize s.voice v = x
  rw [Voice.writeSample_update]
  generalize headerDecode s.rom (sampleIndex data (x.reg 2)) = smp
  obtain ⟨hplfoPhase, halfoPhase⟩ := x.lfoCascade_phase tables smp.lfoVib (smp.lfoAmp.setWidth 8)
  have hamp := lfoAmp_setWidth_eq_zero_iff smp.lfoAmp
  refine ⟨rfl, rfl, rfl, rfl, rfl, rfl, rfl, rfl, rfl, rfl, rfl, rfl, rfl, thresholdCode_toNat _, hplfoPhase, halfoPhase,
    fun hvib0 hamp0 => ?noLfo, fun hany => ?anyLfo, fun hamp1 => ?ampLfo, fun hvib1 hamp0 => ?vibLfo,
    fun hplay => ?playing, fun hstill => ?silent⟩
  case noLfo =>
    rw [hvib0, hamp.mpr hamp0]
    exact x.lfoCascade_zero tables
  case anyLfo =>
    by_cases hamp0 : smp.lfoAmp = 0
    · obtain ⟨hpstep, hastep, hdepth, -⟩ :=
        x.lfoCascade_of_vib_ne_zero tables smp.lfoVib (hany.resolve_right (not_not.mpr hamp0))
      rw [hamp.mpr hamp0]
      exact ⟨hpstep, hastep.trans hpstep.symm, hdepth⟩
    · obtain ⟨hpstep, hastep, hdepth, -⟩ :=
        x.lfoCascade_of_amp_ne_zero tables smp.lfoVib (smp.lfoAmp.setWidth 8) (mt hamp.mp hamp0)
      exact ⟨hpstep, hastep.trans hpstep.symm, hdepth⟩
  case ampLfo =>
    obtain ⟨-, -, -, hdepth⟩ :=
      x.lfoCascade_of_amp_ne_zero tables smp.lfoVib (smp.lfoAmp.setWidth 8) (mt hamp.mp hamp1)
    exact hdepth.trans (ampDepth_setWidth smp.lfoAmp)
  case vibLfo =>
    obtain ⟨-, -, -, hdepth⟩ := x.lfoCascade_of_vib_ne_zero tables smp.lfoVib hvib1
    rw [hamp.mpr hamp0]
    exact hdepth
  case playing =>
    simp only [hplay, if_true]
    exact ⟨trivial, trivial, storeTl_destValue_toNat x.destTl, trivial, trivial⟩
  case silent => simp only [hstill, Bool.false_eq_true, if_false, and_self]

/-- The floor of a quotient by a positive rate is the greatest natural whose product with it is at most the dividend
(00_scope.md R15). -/
theorem floorQuotient_bounds (n : Nat) {R : Rat} (hR : 0 < R) :
    (floorQuotient n R : Rat) * R ≤ n ∧ (n : Rat) < (floorQuotient n R + 1) * R := by
  have hfloor : floorQuotient n R = ⌊(n : Rat) / R⌋₊ := Int.floor_toNat ((n : Rat) / R)
  rw [hfloor, ← le_div_iff₀ hR, ← div_lt_iff₀ hR]
  exact ⟨Nat.floor_le (by positivity), Nat.lt_floor_add_one _⟩

/-- Settles O17: both pitch writes store a byte and run PITCH_UPDATE, whose step is the floor of a quotient. -/
theorem pitchWritesSetTheStep : Obligations.PitchWritesSetTheStep := by
  intro s v data hsel hrate i r hi
  have hexec : exec i s = .next (s.updateVoice v fun x => x.writePitch tables s.rate r data) := by
    rcases hi with ⟨rfl, rfl⟩ | ⟨rfl, rfl⟩
    · exact exec_wrPitchl_selected data hsel
    · exact exec_wrPitchh_selected data hsel
  refine ⟨_, hexec, onlyVoiceDiffers_updateVoice s v _, ?_⟩
  rw [State.updateVoice_voice_same, Voice.writePitch_eq, Voice.pitchUpdate_eq]
  obtain ⟨hlow, hhigh⟩ := floorQuotient_bounds _ hrate
  exact ⟨hlow, hhigh, rfl⟩

/-- Settles O18: a key-on stores a byte that no rate depends on, and retriggers. -/
theorem wrKeyonRestartsTheVoice : Obligations.WrKeyonRestartsTheVoice := by
  intro s v data hsel
  refine ⟨_, exec_wrKeyon_selected data hsel, onlyVoiceDiffers_updateVoice s v _, ?_⟩
  have hreg : ((s.voice v).storeReg 4 data).reg 3 = (s.voice v).reg 3 := (s.voice v).reg_storeReg 4 3 data
  rw [State.updateVoice_voice_same, Voice.writeKeyon_eq, Voice.egRecalc_eq, hreg]
  exact ⟨storeTl_destValue_toNat _, rfl⟩

/-- Settles O19: the release code is the instant one or another. -/
theorem wrKeyoffReleasesTheVoice : Obligations.WrKeyoffReleasesTheVoice := by
  intro s v data hsel
  refine ⟨_, exec_wrKeyoff_selected data hsel, onlyVoiceDiffers_updateVoice s v _, ?_⟩
  rw [State.updateVoice_voice_same, Voice.writeKeyoff_eq]
  refine ⟨fun hinstant => ?instant, fun hother => ?release⟩
  case instant =>
    have hrr : (s.voice v).smp.rr = instantRelease := BitVec.eq_of_toNat_eq hinstant
    simp only [hrr, if_true]
  case release => simp only [(ne_instantRelease_iff _).mpr hother, if_false]

/-- Settles O20: the destination fits in the bits of the level. -/
theorem wrTlsetSetsTheLevel : Obligations.WrTlsetSetsTheLevel := by
  intro s v data hsel
  refine ⟨_, exec_wrTlset_selected data hsel, onlyVoiceDiffers_updateVoice s v _, ?_⟩
  rw [State.updateVoice_voice_same, Voice.writeTlset_eq]
  refine ⟨destLevel_toNat data, ?_, rfl⟩
  rw [storeTl_destValue_toNat, destLevel_toNat]

/-- Settles O21: the comparison is of the level with the destination's fixed-point value, and the tables give the two
steps their signs. -/
theorem wrTlrampChoosesTheStep : Obligations.WrTlrampChoosesTheStep := by
  intro s v data hsel
  refine ⟨_, exec_wrTlramp_selected data hsel, onlyVoiceDiffers_updateVoice s v _, ?_⟩
  have hdest : destValue (destLevel data) = data.toNat / 2 * 4096 := congrArg (· * 4096) (destLevel_toNat data)
  rw [State.updateVoice_voice_same, Voice.writeTlramp_eq, hdest]
  refine ⟨destLevel_toNat data, fun habove => ?lower, fun hbelow => ?raise, rfl⟩
  case lower =>
    dsimp only
    rw [if_pos habove]
    exact ⟨rfl, tables_ok.lower⟩
  case raise =>
    dsimp only
    rw [if_neg hbelow.not_gt]
    exact ⟨rfl, tables_ok.raise⟩

/-- Settles O22: both writes store a byte, and a nonzero one runs LFO_RECOMPUTE on the new registers 6 and 7. -/
theorem lfoWritesLatchBothUnits : Obligations.LfoWritesLatchBothUnits := by
  intro s v data hsel i r hi
  have hexec : exec i s = .next (s.updateVoice v fun x => x.writeLfoReg tables r data) := by
    rcases hi with ⟨rfl, rfl⟩ | ⟨rfl, rfl⟩
    · exact exec_wrLfo_selected data hsel
    · exact exec_wrAm_selected data hsel
  refine ⟨_, hexec, onlyVoiceDiffers_updateVoice s v _, ?_⟩
  rw [State.updateVoice_voice_same]
  refine ⟨fun hzero => ?zero, fun hne => ?nonzero⟩
  case zero =>
    rw [hzero, Voice.writeLfoReg_zero]
    rfl
  case nonzero =>
    rw [Voice.writeLfoReg_of_ne_zero tables _ r hne, Voice.lfoRecompute_eq]
    exact ⟨_, BitVec.toNat_ofNat _ _, rfl⟩

end Sys2Proof.Machine

/-! The proofs of the statements of 44_mixer.md on the ramp of the total level, the frame of a tick and the two pan codes
that R12 constrains. -/

namespace Sys2Proof.Machine

/-! ### The total-level ramp -/

/-- A level that fits in its 19 bits is stored as it is (10_state.md R44). -/
theorem storeTl_toNat {n : Int} (hlow : 0 ≤ n) (hhigh : n < 2 ^ 19) : ((storeTl n).toNat : Int) = n := by
  have hmod : n % 2 ^ 19 = n := Int.emod_eq_of_lt hlow hhigh
  rw [storeTl, BitVec.toNat_ofInt]
  show ((n % 2 ^ 19).toNat : Int) = n
  rw [hmod, Int.toNat_of_nonneg hlow]

/-- The fixed-point destination fits in the bits of a level (10_state.md R44). -/
theorem destValue_le (destTl : BitVec 7) : destValue destTl ≤ 127 * 4096 :=
  Nat.mul_le_mul_right _ (Nat.le_of_lt_succ destTl.isLt)

section
variable {tl : BitVec (7 + Config.tlShift)} {destTl : BitVec 7} {tlStep : Int}

/-- A level at its destination stays there (44_mixer.md R290). -/
theorem rampTl_at_dest (h : tl.toNat = destValue destTl) : rampTl tl destTl tlStep = tl := by
  rw [rampTl]
  exact if_neg (not_not.mpr (congrArg Nat.cast h))

/-- A step that raises the level does not pass the destination from below, and falls back to it from above
(44_mixer.md R291). -/
theorem rampTl_raise (hne : tl.toNat ≠ destValue destTl) (hstep : 0 ≤ tlStep) :
    ((rampTl tl destTl tlStep).toNat : Int) = min (tl.toNat + tlStep) (destValue destTl) := by
  have hdest := destValue_le destTl
  rw [rampTl, if_pos (by exact_mod_cast hne), if_pos hstep]
  exact storeTl_toNat (by omega) (by omega)

/-- A step that lowers the level does not pass the destination from above, and rises back to it from below
(44_mixer.md R291). -/
theorem rampTl_lower (hne : tl.toNat ≠ destValue destTl) (hstep : tlStep < 0) :
    ((rampTl tl destTl tlStep).toNat : Int) = max (tl.toNat + tlStep) (destValue destTl) := by
  have hdest := destValue_le destTl
  have htl : tl.toNat < 2 ^ 19 := tl.isLt
  rw [rampTl, if_pos (by exact_mod_cast hne), if_neg (not_le.mpr hstep)]
  exact storeTl_toNat (by omega) (by omega)

end

/-- Settles O35: the level is at its destination, or the sign of the ramp step says which bound it stops at. -/
theorem tickRampsTheLevel : Obligations.TickRampsTheLevel := by
  intro s v hplay
  refine ⟨_, exec_tick s, ?_⟩
  rw [State.tick_voice, Voice.tick_voice _ _ _ hplay, Voice.tickState_eq]
  generalize s.voice v = x
  refine ⟨rfl, rfl, fun hat => rampTl_at_dest ?_, fun hne hstep => rampTl_raise (fun hat => hne ?_) hstep,
    fun hne hstep => rampTl_lower (fun hat => hne ?_) hstep⟩
  · exact Int.ofNat_inj.mp hat
  all_goals exact congrArg Nat.cast hat

/-! ### The frame of a tick -/

/-- An LFO unit that may advance keeps its latched fields (42_lfo.md R223). -/
theorem LfoUnit.advance_if_frame (u : LfoUnit) (p : Prop) [Decidable p] :
    (if p then u.advance else u) = { u with phase := (if p then u.advance else u).phase } := by
  split <;> rfl

/-- What a tick leaves of a voice: it writes only the fields that its ten steps name (44_mixer.md R310). -/
theorem Voice.tick_frame (T : Config.Tables) (m : Memory) (x : Voice) :
    let y := (x.tick T m).voice
    y = { x with
      offset := y.offset
      prev := y.prev
      playing := y.playing
      tl := y.tl
      eg := { x.eg with state := y.eg.state, vol := y.eg.vol }
      plfo := { x.plfo with phase := y.plfo.phase }
      alfo := { x.alfo with phase := y.alfo.phase } } := by
  cases hplay : x.playing with
  | false => rw [Voice.tick_not_playing _ _ _ hplay]
  | true =>
    rw [Voice.tick_voice _ _ _ hplay, Voice.tickState_eq]
    dsimp only
    rw [← x.plfo.advance_if_frame, ← x.alfo.advance_if_frame, ← Envelope.tick_frame]

/-- Settles O43: the tick writes the voices and the frames, and of each voice the fields of its own part. -/
theorem tickFrame : Obligations.TickFrame := by
  refine fun s => ⟨_, exec_tick s, rfl, fun v => ?_⟩
  rw [State.tick_voice]
  exact Voice.tick_frame tables s.rom (s.voice v)

/-! ### The pan codes -/

/-- A voice with pan code 0 adds the same to both channels, whether it plays or not (00_scope.md R12, 44_mixer.md R297,
R305). -/
theorem Voice.tick_pan_zero {T : Config.Tables} (hT : TablesOk T) (m : Memory) {x : Voice} (h : x.pan = 0) :
    (x.tick T m).left = (x.tick T m).right := by
  cases hplay : x.playing with
  | false => rw [Voice.tick_not_playing _ _ _ hplay]
  | true =>
    have hkey : keyPan (x.tickKey T m) = 0 := (keyPan_panKey _ _).trans h
    obtain ⟨hleft, hright⟩ := x.tick_addends T m hplay
    rw [hleft, hright, hT.panCentre _ hkey]

/-- Settles O46: the pan tables are silent at code 8 and equal at code 0, at every key. -/
theorem panCodesZeroAndEight : Obligations.PanCodesZeroAndEight :=
  fun _ m => ⟨Voice.tick_pan_eight tables_ok m, Voice.tick_pan_zero tables_ok m⟩

end Sys2Proof.Machine

/-! The proofs of the statements about the whole machine: what starts and stops a voice, which voice a bus write can
change, and when the playback steps and the latched LFO steps change. -/

namespace Sys2Proof.Machine

/-- Settles O50: `playing` changes by a register operation on the selected voice, by the end of a release in a tick, or by
a reset, which clears it. -/
theorem playingChangesOnlyAsStated : Obligations.PlayingChangesOnlyAsStated := by
  refine ⟨fun i s t v h => ⟨fun hstill hplay => ?starts, fun hplay hstill => ?stops⟩, fun v => ?atReset⟩
  case starts =>
    rcases exec_voice h v with hsame | ⟨hsel, hop⟩ | ⟨-, htick⟩ | ⟨-, hreset⟩
    · rw [hsame, hstill] at hplay
      cases hplay
    · rcases hop.playing_cases with hkept | ⟨hkeyon, -⟩ | ⟨-, -, hstopped⟩
      · cases hplay.symm.trans (hkept.trans hstill)
      · exact ⟨hsel, hkeyon⟩
      · cases hplay.symm.trans hstopped
    · rw [htick, Voice.tick_not_playing _ _ _ hstill, hstill] at hplay
      cases hplay
    · rw [hreset, Voice.reset_playing] at hplay
      cases hplay
  case stops =>
    rcases exec_voice h v with hsame | ⟨hsel, hop⟩ | ⟨rfl, -⟩ | ⟨hreset, -⟩
    · rw [hsame, hplay] at hstill
      cases hstill
    · rcases hop.playing_cases with hkept | ⟨-, hstarted⟩ | ⟨hkeyoff, hinstant, -⟩
      · cases hstill.symm.trans (hkept.trans hplay)
      · cases hstill.symm.trans hstarted
      · exact .inl ⟨hsel, hkeyoff, congrArg BitVec.toNat hinstant⟩
    · cases h
      have hends := not_not.mp (mt (State.tick_voice_playing_iff (T := tables) hplay).mpr (Bool.eq_false_iff.mp hstill))
      exact .inr (.inl ⟨rfl, hends.left, (congrArg Envelope.vol (State.tick_voice_eg hplay)).trans hends.right⟩)
    · exact .inr (.inr hreset)
  case atReset => rw [State.voice_reset, Voice.reset_playing]

/-- Settles O52: a voice changes by a register operation where it is selected, by a tick or by a reset, and the last two
are no bus writes. -/
theorem writesTouchOnlyTheSelectedVoice : Obligations.WritesTouchOnlyTheSelectedVoice := by
  intro s t w hwrite hsel h
  obtain ⟨i, hdecode, hexec⟩ := step_next h
  have hevent := encode_of_decode hdecode
  rcases exec_voice hexec w with hsame | ⟨hselected, -⟩ | ⟨rfl, -⟩ | ⟨rfl, -⟩
  · exact hsame
  · exact absurd hselected hsel
  · rw [← hevent] at hwrite
    exact hwrite.elim
  · rw [← hevent] at hwrite
    exact hwrite.elim

/-- A register operation but a pitch write keeps the playback step (10_state.md R41). -/
theorem RegisterOp.step_cases {m : Memory} {R : Rat} {i : Instr} {x y : Voice} (h : RegisterOp m R i x y) :
    y.step = x.step ∨ ∃ d, i = .wrPitchl d ∨ i = .wrPitchh d := by
  rcases h with ⟨d, rfl, rfl⟩ | ⟨d, rfl, rfl⟩ | ⟨d, rfl, rfl⟩ | ⟨d, rfl, rfl⟩ | ⟨d, rfl, rfl⟩ | ⟨d, rfl, rfl⟩ |
    ⟨d, rfl, rfl⟩ | ⟨d, rfl, rfl⟩ | ⟨d, rfl, rfl⟩ | ⟨d, rfl, rfl⟩
  · exact .inl rfl
  · rw [Voice.writeSample_update]; exact .inl rfl
  · exact .inr ⟨d, .inl rfl⟩
  · exact .inr ⟨d, .inr rfl⟩
  · rw [Voice.writeKeyoff_eq]; exact .inl rfl
  · exact .inl rfl
  · exact .inl rfl
  · exact .inl rfl
  · rw [Voice.writeLfoReg_eq]; exact .inl rfl
  · rw [Voice.writeLfoReg_eq]; exact .inl rfl

/-- Settles O53: a register operation changes a step only at its own writes, and a tick advances phases alone. -/
theorem stepsChangeOnlyAtWrites : Obligations.StepsChangeOnlyAtWrites := by
  intro i s t v h hreset
  rcases exec_voice h v with hsame | ⟨hsel, hop⟩ | ⟨-, htick⟩ | ⟨hr, -⟩
  · rw [hsame]
    exact ⟨fun hne => absurd rfl hne, fun hne => hne.elim (absurd rfl) (absurd rfl)⟩
  · refine ⟨fun hne => ⟨hsel, hop.step_cases.resolve_left hne⟩, fun hne => ⟨hsel, ?_⟩⟩
    rcases hop.lfo_cases with ⟨hplfo, halfo⟩ | ⟨d, hi, -⟩ | ⟨d, hi, -⟩ | ⟨d, hi, -⟩
    · rw [hplfo, halfo] at hne
      exact hne.elim (absurd rfl) (absurd rfl)
    · exact ⟨d, .inl hi⟩
    · exact ⟨d, .inr (.inl hi)⟩
    · exact ⟨d, .inr (.inr hi)⟩
  · have hframe := Voice.tick_frame tables s.rom (s.voice v)
    rw [htick, hframe]
    exact ⟨fun hne => absurd rfl hne, fun hne => hne.elim (absurd rfl) (absurd rfl)⟩
  · exact absurd hr hreset

end Sys2Proof.Machine

/-! The proofs of the invariants: each of the five holds at reset, and the register operations and the tick of a playing
voice keep it, so every step keeps it. -/

namespace Sys2Proof.Machine

/-! ### What a register operation does to the stored values -/

/-- A register operation keeps the position, the previous sample and the volume, or sets all three to 0, as a retrigger
does (40_register_bank.md R170). -/
theorem RegisterOp.position_cases {m : Memory} {R : Rat} {i : Instr} {x y : Voice} (h : RegisterOp m R i x y) :
    (y.offset = x.offset ∧ y.prev = x.prev ∧ y.eg.vol = x.eg.vol) ∨ (y.offset = 0 ∧ y.prev = 0 ∧ y.eg.vol = 0) := by
  rcases h with ⟨d, rfl, rfl⟩ | ⟨d, rfl, rfl⟩ | ⟨d, rfl, rfl⟩ | ⟨d, rfl, rfl⟩ | ⟨d, rfl, rfl⟩ | ⟨d, rfl, rfl⟩ |
    ⟨d, rfl, rfl⟩ | ⟨d, rfl, rfl⟩ | ⟨d, rfl, rfl⟩ | ⟨d, rfl, rfl⟩
  · exact .inl ⟨rfl, rfl, rfl⟩
  · rw [Voice.writeSample_update]
    cases x.playing with
    | false => exact .inl ⟨rfl, rfl, rfl⟩
    | true => exact .inr ⟨rfl, rfl, rfl⟩
  · exact .inl ⟨rfl, rfl, rfl⟩
  · exact .inl ⟨rfl, rfl, rfl⟩
  · rw [Voice.writeKeyoff_eq]
    refine .inl ⟨rfl, rfl, ?_⟩
    dsimp only
    split <;> rfl
  · exact .inr ⟨rfl, rfl, rfl⟩
  · exact .inl ⟨rfl, rfl, rfl⟩
  · exact .inl ⟨rfl, rfl, rfl⟩
  · rw [Voice.writeLfoReg_eq]; exact .inl ⟨rfl, rfl, rfl⟩
  · rw [Voice.writeLfoReg_eq]; exact .inl ⟨rfl, rfl, rfl⟩

/-- A register operation keeps the level, its destination and the ramp step, or puts the level at the destination, or
chooses the ramp step by the direction to the destination (40_register_bank.md R165, R166, R170). -/
theorem RegisterOp.level_cases {m : Memory} {R : Rat} {i : Instr} {x y : Voice} (h : RegisterOp m R i x y) :
    (y.tl = x.tl ∧ y.destTl = x.destTl ∧ y.tlStep = x.tlStep) ∨
    (y.tl = storeTl (destValue y.destTl) ∧ y.tlStep = x.tlStep) ∨
    (y.tl = x.tl ∧
      y.tlStep = if y.tl.toNat > destValue y.destTl then tables.tlStepLower else tables.tlStepRaise) := by
  rcases h with ⟨d, rfl, rfl⟩ | ⟨d, rfl, rfl⟩ | ⟨d, rfl, rfl⟩ | ⟨d, rfl, rfl⟩ | ⟨d, rfl, rfl⟩ | ⟨d, rfl, rfl⟩ |
    ⟨d, rfl, rfl⟩ | ⟨d, rfl, rfl⟩ | ⟨d, rfl, rfl⟩ | ⟨d, rfl, rfl⟩
  · exact .inl ⟨rfl, rfl, rfl⟩
  · rw [Voice.writeSample_update]
    cases x.playing with
    | false => exact .inl ⟨rfl, rfl, rfl⟩
    | true => exact .inr (.inl ⟨rfl, rfl⟩)
  · exact .inl ⟨rfl, rfl, rfl⟩
  · exact .inl ⟨rfl, rfl, rfl⟩
  · rw [Voice.writeKeyoff_eq]; exact .inl ⟨rfl, rfl, rfl⟩
  · exact .inr (.inl ⟨rfl, rfl⟩)
  · exact .inr (.inr ⟨rfl, rfl⟩)
  · exact .inr (.inl ⟨rfl, rfl⟩)
  · rw [Voice.writeLfoReg_eq]; exact .inl ⟨rfl, rfl, rfl⟩
  · rw [Voice.writeLfoReg_eq]; exact .inl ⟨rfl, rfl, rfl⟩

/-! ### The ranges -/

/-- The offset after an advance is at most the largest end or loop point (10_state.md R40). -/
theorem advanceOffset_le (smp : Sample) (offset : BitVec (16 + Config.fracBits)) (eff : Nat) :
    (advanceOffset smp offset eff).toNat ≤ 0xFFFF * 4096 := by
  have hsample (n : BitVec 16) : n.toNat * 4096 ≤ 0xFFFF * 4096 := Nat.mul_le_mul_right _ (Nat.le_of_lt_succ n.isLt)
  rcases Nat.lt_or_ge (offset.toNat + eff) (smp.endPos.toNat * 4096) with hlt | hwrap
  · rw [advanceOffset_toNat_of_lt hlt]
    exact hlt.le.trans (hsample smp.endPos)
  · rw [advanceOffset_toNat_of_wrap hwrap]
    exact hsample smp.loopPos

/-- A ramp keeps the level in its range: it lies between the old level and the destination (10_state.md R44). -/
theorem rampTl_le {tl : BitVec (7 + Config.tlShift)} (h : tl.toNat ≤ 127 * 4096) (destTl : BitVec 7) (tlStep : Int) :
    (rampTl tl destTl tlStep).toNat ≤ 127 * 4096 := by
  have hdest := destValue_le destTl
  by_cases hat : tl.toNat = destValue destTl
  · rw [rampTl_at_dest hat]
    exact h
  · rcases lt_or_ge tlStep 0 with hneg | hpos
    · have hnew := rampTl_lower hat hneg
      omega
    · have hnew := rampTl_raise hat hpos
      omega

/-- A register operation keeps a voice's values in their ranges. -/
theorem Voice.InRange.registerOp {m : Memory} {R : Rat} {i : Instr} {x y : Voice} (hx : x.InRange)
    (h : RegisterOp m R i x y) : y.InRange := by
  obtain ⟨hoffset, htl, hvol⟩ := hx
  have htl' : y.tl.toNat ≤ 127 * 4096 := by
    rcases h.level_cases with ⟨hkept, -, -⟩ | ⟨hset, -⟩ | ⟨hkept, -⟩
    · rw [hkept]; exact htl
    · rw [hset, storeTl_destValue_toNat]; exact destValue_le y.destTl
    · rw [hkept]; exact htl
  rcases h.position_cases with ⟨hoffset', -, hvol'⟩ | ⟨hoffset', -, hvol'⟩
  · exact ⟨by rw [hoffset']; exact hoffset, htl', by rw [hvol']; exact hvol⟩
  · exact ⟨by rw [hoffset']; exact Nat.zero_le _, htl', by rw [hvol']; exact Nat.zero_le _⟩

/-- A tick keeps a playing voice's values in their ranges. -/
theorem Voice.InRange.tickState {x : Voice} (hx : x.InRange) (T : Config.Tables) (m : Memory) :
    (x.tickState T m).InRange := by
  obtain ⟨-, htl, hvol⟩ := hx
  obtain ⟨-, -, hvol', -⟩ := envelopeIsMonotone x.eg hvol
  rw [Voice.tickState_eq]
  exact ⟨advanceOffset_le _ _ _, rampTl_le htl _ _, hvol'⟩

theorem Voice.inRange_reset (T : Config.Tables) : (Voice.reset T).InRange :=
  ⟨Nat.zero_le _, Nat.zero_le _, Nat.zero_le _⟩

theorem clocksPerFrame_pos : (0 : Rat) < clocksPerFrame := Nat.cast_pos.mpr (by decide)

/-- A step keeps the rate positive: the only new rate is that of a positive input clock (00_scope.md R10). -/
theorem step_keeps_rate_pos {s t : State} (hrate : 0 < s.rate) (h : step s = .next t) : 0 < t.rate := by
  obtain ⟨i, hdecode, hexec⟩ := step_next h
  obtain ⟨-, -, hkept | ⟨f, rfl, hnew⟩, -⟩ := exec_outside hexec
  · rw [hkept]; exact hrate
  · obtain ⟨hwf, -⟩ := wellFormed_and_inputs_of_decode hdecode
    rw [hnew]
    exact div_pos (of_decide_eq_true hwf) clocksPerFrame_pos

/-- A step takes the next event off the list and adds none. -/
theorem step_pending {s t : State} (h : step s = .next t) : t.pending = s.pending.tail := by
  obtain ⟨i, -, hexec⟩ := step_next h
  obtain ⟨-, hpending, -⟩ := exec_outside hexec
  exact hpending

/-- Settles O55: the voices' ranges are kept by every register operation and tick, the rate stays positive, the ROM is the
same listing, and the events left are among those of before. -/
theorem stepKeepsRanges : Obligations.StepKeepsRanges := by
  intro s t ⟨hvoices, hrate, hrom, hpending⟩ h
  refine ⟨?voices, step_keeps_rate_pos hrate h, ?rom, fun e he => ?pending⟩
  case voices =>
    exact step_keeps_voices (P := Voice.InRange) (fun _ _ _ _ _ hx hop => hx.registerOp hop)
      (fun m _ hx _ => hx.tickState tables m) (Voice.inRange_reset tables) hvoices h
  case rom => rw [step_rom h]; exact hrom
  case pending =>
    rw [step_pending h] at he
    exact hpending e (List.mem_of_mem_tail he)

/-! ### The ramp step -/

/-- A register operation keeps the ramp step aimed: it puts the level at the destination, or chooses the step by the
direction to it (44_mixer.md R291). -/
theorem Voice.RampAimed.registerOp {m : Memory} {R : Rat} {i : Instr} {x y : Voice} (hx : x.RampAimed)
    (h : RegisterOp m R i x y) : y.RampAimed := by
  obtain ⟨hvalue, hbelow, habove⟩ := hx
  rcases h.level_cases with ⟨htl, hdest, hstep⟩ | ⟨htl, hstep⟩ | ⟨-, hstep⟩
  · rw [Voice.RampAimed, htl, hdest, hstep]
    exact ⟨hvalue, hbelow, habove⟩
  · have hat : y.tl.toNat = destValue y.destTl := by rw [htl]; exact storeTl_destValue_toNat y.destTl
    refine ⟨hstep ▸ hvalue, fun hlt => ?_, fun hgt => ?_⟩
    · exact absurd hat hlt.ne
    · exact absurd hat hgt.ne'
  · by_cases hgt : y.tl.toNat > destValue y.destTl
    · rw [if_pos hgt] at hstep
      exact ⟨.inr (.inr hstep), fun hlt => absurd hlt hgt.not_gt, fun _ => hstep ▸ tables_ok.lower⟩
    · rw [if_neg hgt] at hstep
      exact ⟨.inr (.inl hstep), fun _ => hstep ▸ tables_ok.raise, fun hgt' => absurd hgt' hgt⟩

/-- A ramp that ends below the destination began below it, and one that ends above began above: a step toward the
destination does not pass it (44_mixer.md R291). -/
theorem rampTl_side {tl : BitVec (7 + Config.tlShift)} {destTl : BitVec 7} {tlStep : Int}
    (hbelow : tl.toNat < destValue destTl → 0 < tlStep) (habove : destValue destTl < tl.toNat → tlStep < 0) :
    ((rampTl tl destTl tlStep).toNat < destValue destTl → tl.toNat < destValue destTl) ∧
      (destValue destTl < (rampTl tl destTl tlStep).toNat → destValue destTl < tl.toNat) := by
  rcases lt_trichotomy tl.toNat (destValue destTl) with hlt | hat | hgt
  · have hnew := rampTl_raise hlt.ne (hbelow hlt).le
    exact ⟨fun _ => hlt, fun hpassed => by omega⟩
  · rw [rampTl_at_dest hat]
    exact ⟨id, id⟩
  · have hnew := rampTl_lower hgt.ne' (habove hgt)
    exact ⟨fun hpassed => by omega, fun _ => hgt⟩

/-- A tick keeps a playing voice's ramp step aimed. -/
theorem Voice.RampAimed.tickState {x : Voice} (hx : x.RampAimed) (T : Config.Tables) (m : Memory) :
    (x.tickState T m).RampAimed := by
  obtain ⟨hvalue, hbelow, habove⟩ := hx
  obtain ⟨hbelow', habove'⟩ := rampTl_side hbelow habove
  rw [Voice.tickState_eq]
  exact ⟨hvalue, fun hlt => hbelow (hbelow' hlt), fun hgt => habove (habove' hgt)⟩

/-- At reset the level is at its destination, and the ramp step is 0 (10_state.md R50). -/
theorem Voice.rampAimed_reset (T : Config.Tables) : (Voice.reset T).RampAimed := by
  have hat : destValue (Voice.reset T).destTl = (Voice.reset T).tl.toNat := Nat.zero_mul _
  exact ⟨.inl rfl, fun hlt => absurd hat hlt.ne', fun hgt => absurd hat hgt.ne⟩

/-- Settles O56: a write aims the step where it moves the level or the destination, and a tick does not pass the
destination. -/
theorem stepKeepsRampAimed : Obligations.StepKeepsRampAimed := fun _ _ hs h =>
  step_keeps_voices (P := Voice.RampAimed) (fun _ _ _ _ _ hx hop => hx.registerOp hop)
    (fun m _ hx _ => hx.tickState tables m) (Voice.rampAimed_reset tables) hs h

/-! ### The latched fields -/

/-- Rates that are recomputed stay so while the metadata, register 3 and the rates stay (41_envelope.md R192). -/
theorem Voice.egRecalc_fixed {T : Config.Tables} {x y : Voice} (h : x.egRecalc T = x) (hsmp : y.smp = x.smp)
    (hreg : y.reg 3 = x.reg 3) (heg : y.eg = { x.eg with state := y.eg.state, vol := y.eg.vol }) :
    y.egRecalc T = y := by
  have hsame : (y.egRecalc T).eg = y.eg := calc
    (y.egRecalc T).eg = { (x.egRecalc T).eg with state := y.eg.state, vol := y.eg.vol } := by
      simp only [Voice.egRecalc_eq, hsmp, hreg]
    _ = { x.eg with state := y.eg.state, vol := y.eg.vol } := by rw [h]
    _ = y.eg := heg.symm
  rw [Voice.egRecalc_eq_with_eg, hsame]

section
variable {x y : Voice} (hx : x.Latched) {r : Fin 8} {d : Byte}
include hx

/-- A write that stores one register keeps the latched fields, when it latches the pan code in register 0 and the
destination in register 5, and leaves the rates recomputed. -/
theorem Voice.Latched.store (hregs : y.regs = (x.storeReg r d).regs)
    (hpan : y.pan = if 0 = r then panCode d else x.pan) (hdest : y.destTl = if 5 = r then destLevel d else x.destTl)
    (hsmp : y.smp = x.smp) (hbase : y.base = x.base) (hformat : y.format = x.format)
    (hrates : y.egRecalc tables = y) : y.Latched := by
  obtain ⟨hxpan, hxdest, hxbase, hxformat, -⟩ := hx
  have hreg (q : Fin 8) : y.reg q = if q = r then d else x.reg q := (Voice.reg_congr hregs q).trans (x.reg_storeReg r q d)
  refine ⟨?pan, ?dest, ?base, ?format, hrates⟩
  case pan => rw [hpan, hreg, apply_ite panCode, hxpan]
  case dest => rw [hdest, hreg, apply_ite destLevel, hxdest]
  case base => rw [hbase, hsmp, hxbase]
  case format => rw [hformat, hsmp, hxformat]

/-- A write to a register but 3 that keeps the metadata and the rates leaves the rates recomputed. -/
theorem Voice.Latched.egRecalc_store (hregs : y.regs = (x.storeReg r d).regs) (hr : 3 ≠ r) (hsmp : y.smp = x.smp)
    (heg : y.eg = { x.eg with state := y.eg.state, vol := y.eg.vol }) : y.egRecalc tables = y := by
  obtain ⟨-, -, -, -, hrates⟩ := hx
  have hreg : y.reg 3 = x.reg 3 := by rw [Voice.reg_congr hregs, Voice.reg_storeReg, if_neg hr]
  exact Voice.egRecalc_fixed hrates hsmp hreg heg

end

/-- A register-1 write latches base and format from the new metadata and recomputes the rates (40_register_bank.md
R152). -/
theorem Voice.Latched.writeSample {x : Voice} (hx : x.Latched) (m : Memory) (d : Byte) :
    (x.writeSample tables m d).Latched := by
  obtain ⟨hpan, hdest, -, -, -⟩ := hx
  have hreg := Voice.reg_of_loadedRegs _ _ _ x (x.writeSample_regs tables m d)
  have hkept : (x.writeSample tables m d).reg 0 = x.reg 0 ∧ (x.writeSample tables m d).reg 3 = x.reg 3 ∧
      (x.writeSample tables m d).reg 5 = x.reg 5 := ⟨hreg 0, hreg 3, hreg 5⟩
  rw [Voice.writeSample_update] at hkept ⊢
  obtain ⟨hreg0, hreg3, hreg5⟩ := hkept
  exact ⟨hpan.trans (congrArg panCode hreg0.symm), hdest.trans (congrArg destLevel hreg5.symm), rfl, rfl,
    Voice.egRecalc_fixed (Voice.egRecalc_idem tables { x with smp := _ }) rfl hreg3 rfl⟩

/-- A register operation keeps the latched fields equal to what they are latched from. -/
theorem Voice.Latched.registerOp {m : Memory} {R : Rat} {i : Instr} {x y : Voice} (hx : x.Latched)
    (h : RegisterOp m R i x y) : y.Latched := by
  rcases h with ⟨d, rfl, rfl⟩ | ⟨d, rfl, rfl⟩ | ⟨d, rfl, rfl⟩ | ⟨d, rfl, rfl⟩ | ⟨d, rfl, rfl⟩ | ⟨d, rfl, rfl⟩ |
    ⟨d, rfl, rfl⟩ | ⟨d, rfl, rfl⟩ | ⟨d, rfl, rfl⟩ | ⟨d, rfl, rfl⟩
  · exact hx.store (r := 0) rfl rfl rfl rfl rfl rfl (hx.egRecalc_store (r := 0) rfl (by decide) rfl rfl)
  · exact hx.writeSample m d
  · exact hx.store (r := 2) rfl rfl rfl rfl rfl rfl rfl
  · exact hx.store (r := 3) rfl rfl rfl rfl rfl rfl rfl
  · have hregs := x.writeKeyoff_regs d
    rw [Voice.writeKeyoff_eq] at hregs ⊢
    refine hx.store hregs rfl rfl rfl rfl rfl (hx.egRecalc_store hregs (by decide) rfl ?_)
    dsimp only
    split <;> rfl
  · exact hx.store (r := 4) rfl rfl rfl rfl rfl rfl rfl
  · exact hx.store (r := 5) rfl rfl rfl rfl rfl rfl (hx.egRecalc_store (r := 5) rfl (by decide) rfl rfl)
  · exact hx.store (r := 5) rfl rfl rfl rfl rfl rfl (hx.egRecalc_store (r := 5) rfl (by decide) rfl rfl)
  · have hregs := x.writeLfoReg_regs tables d 6
    rw [Voice.writeLfoReg_eq] at hregs ⊢
    exact hx.store hregs rfl rfl rfl rfl rfl (hx.egRecalc_store hregs (by decide) rfl rfl)
  · have hregs := x.writeLfoReg_regs tables d 7
    rw [Voice.writeLfoReg_eq] at hregs ⊢
    exact hx.store hregs rfl rfl rfl rfl rfl (hx.egRecalc_store hregs (by decide) rfl rfl)

/-- A tick writes no register, no latched field and no rate. -/
theorem Voice.Latched.tick {x : Voice} (hx : x.Latched) (T : Config.Tables) (m : Memory) :
    (x.tick T m).voice.Latched := by
  obtain ⟨hpan, hdest, hbase, hformat, hrates⟩ := hx
  rw [Voice.tick_frame]
  exact ⟨hpan, hdest, hbase, hformat, Voice.egRecalc_fixed hrates rfl rfl rfl⟩

theorem Voice.latched_reset : (Voice.reset tables).Latched := ⟨rfl, rfl, rfl, rfl, rfl⟩

/-- Settles O57: each write that changes what a field is latched from latches it again, and a tick changes neither. -/
theorem stepKeepsLatchedFields : Obligations.StepKeepsLatchedFields := fun _ _ hs h =>
  step_keeps_voices (P := Voice.Latched) (fun _ _ _ _ _ hx hop => hx.registerOp hop)
    (fun m x hx hplay => x.tick_voice tables m hplay ▸ hx.tick tables m) Voice.latched_reset hs h

/-! ### The LFO units -/

/-- The invariant of the LFO units is about registers 6 and 7 and the units alone. -/
theorem Voice.LfoLatched.of_sameLfo {x y : Voice} (hx : x.LfoLatched) (h : y.SameLfo x) : y.LfoLatched := by
  obtain ⟨hreg6, hreg7, hplfo, halfo⟩ := h
  rw [Voice.LfoLatched, hreg6, hreg7, hplfo, halfo]
  exact hx

/-- LFO_RECOMPUTE latches both units from registers 6 and 7 (42_lfo.md R221). -/
theorem Voice.lfoLatched_lfoRecompute (x : Voice) : (x.lfoRecompute tables).LfoLatched :=
  ⟨rfl, fun _ => ⟨rfl, rfl⟩, fun _ => rfl⟩

/-- A write to register 6 or 7 recomputes both units, or disables the unit of its register (42_lfo.md R221, R222). -/
theorem Voice.LfoLatched.writeLfoReg {x : Voice} (hx : x.LfoLatched) {r : Fin 8} (hr : r = 6 ∨ r = 7) (d : Byte) :
    (x.writeLfoReg tables r d).LfoLatched := by
  by_cases hd : d = 0
  · obtain ⟨hpstep, hpitch, hamp⟩ := hx
    subst hd
    rw [Voice.writeLfoReg_zero]
    rcases hr with rfl | rfl
    · have hreg7 : (x.storeReg 6 0).reg 7 = x.reg 7 := x.reg_storeReg 6 7 0
      refine ⟨hpstep, fun hne => absurd (x.reg_storeReg_same 6 0) hne, ?_⟩
      rw [hreg7]
      exact hamp
    · have hreg6 : (x.storeReg 7 0).reg 6 = x.reg 6 := x.reg_storeReg 7 6 0
      refine ⟨hpstep, ?_, fun hne => absurd (x.reg_storeReg_same 7 0) hne⟩
      rw [hreg6]
      exact hpitch
  · rw [Voice.writeLfoReg_of_ne_zero _ _ _ hd]
    exact Voice.lfoLatched_lfoRecompute _

/-- A register-1 write is to the LFO fields the cascade of its header's two LFO bytes (42_lfo.md R230). -/
theorem Voice.sameLfo_writeSample (T : Config.Tables) (m : Memory) (d : Byte) (x : Voice) :
    let smp := headerDecode m (sampleIndex d (x.reg 2))
    (x.writeSample T m d).SameLfo (x.lfoCascade T smp.lfoVib (smp.lfoAmp.setWidth 8)) := by
  intro smp
  have hreg := Voice.reg_of_loadedRegs _ _ _ x (x.writeSample_regs T m d)
  obtain ⟨hplfo, halfo⟩ := x.writeSample_lfo T m d
  rw [Voice.writeSample_smp] at hplfo halfo
  refine ⟨?reg6, ?reg7, hplfo, halfo⟩
  case reg6 => rw [hreg, Voice.lfoCascade, Voice.reg_writeLfoReg, Voice.reg_writeLfoReg]; rfl
  case reg7 => rw [hreg, Voice.lfoCascade, Voice.reg_writeLfoReg]; rfl

/-- A write to a register but 6 and 7 that keeps the LFO units leaves the LFO fields alone. -/
theorem Voice.sameLfo_of_store {x y : Voice} {r : Fin 8} {d : Byte} (hregs : y.regs = (x.storeReg r d).regs)
    (h6 : 6 ≠ r) (h7 : 7 ≠ r) (hplfo : y.plfo = x.plfo) (halfo : y.alfo = x.alfo) : y.SameLfo x := by
  refine ⟨?_, ?_, hplfo, halfo⟩
  · rw [Voice.reg_congr hregs, Voice.reg_storeReg, if_neg h6]
  · rw [Voice.reg_congr hregs, Voice.reg_storeReg, if_neg h7]

/-- A register operation keeps the LFO units latched from registers 6 and 7. -/
theorem Voice.LfoLatched.registerOp {m : Memory} {R : Rat} {i : Instr} {x y : Voice} (hx : x.LfoLatched)
    (h : RegisterOp m R i x y) : y.LfoLatched := by
  rcases h with ⟨d, rfl, rfl⟩ | ⟨d, rfl, rfl⟩ | ⟨d, rfl, rfl⟩ | ⟨d, rfl, rfl⟩ | ⟨d, rfl, rfl⟩ | ⟨d, rfl, rfl⟩ |
    ⟨d, rfl, rfl⟩ | ⟨d, rfl, rfl⟩ | ⟨d, rfl, rfl⟩ | ⟨d, rfl, rfl⟩
  · exact hx.of_sameLfo (Voice.sameLfo_of_store (r := 0) rfl (by decide) (by decide) rfl rfl)
  · exact ((hx.writeLfoReg (.inl rfl) _).writeLfoReg (.inr rfl) _).of_sameLfo (x.sameLfo_writeSample tables m d)
  · exact hx.of_sameLfo (Voice.sameLfo_of_store (r := 2) rfl (by decide) (by decide) rfl rfl)
  · exact hx.of_sameLfo (Voice.sameLfo_of_store (r := 3) rfl (by decide) (by decide) rfl rfl)
  · have hregs := x.writeKeyoff_regs d
    rw [Voice.writeKeyoff_eq] at hregs ⊢
    exact hx.of_sameLfo (Voice.sameLfo_of_store hregs (by decide) (by decide) rfl rfl)
  · exact hx.of_sameLfo (Voice.sameLfo_of_store (r := 4) rfl (by decide) (by decide) rfl rfl)
  · exact hx.of_sameLfo (Voice.sameLfo_of_store (r := 5) rfl (by decide) (by decide) rfl rfl)
  · exact hx.of_sameLfo (Voice.sameLfo_of_store (r := 5) rfl (by decide) (by decide) rfl rfl)
  · exact hx.writeLfoReg (.inl rfl) d
  · exact hx.writeLfoReg (.inr rfl) d

/-- A tick writes no register and no latched field of a unit (42_lfo.md R223). -/
theorem Voice.LfoLatched.tick {x : Voice} (hx : x.LfoLatched) (T : Config.Tables) (m : Memory) :
    (x.tick T m).voice.LfoLatched := by
  rw [Voice.tick_frame]
  exact hx

theorem Voice.lfoLatched_reset (T : Config.Tables) : (Voice.reset T).LfoLatched :=
  ⟨rfl, fun h => absurd rfl h, fun h => absurd rfl h⟩

/-- Settles O58: a nonzero byte latches both units again, a zero byte disables the unit of its register, and a register-1
write is two such writes. -/
theorem stepKeepsLfoLatched : Obligations.StepKeepsLfoLatched := fun _ _ hs h =>
  step_keeps_voices (P := Voice.LfoLatched) (fun _ _ _ _ _ hx hop => hx.registerOp hop)
    (fun m x hx hplay => x.tick_voice tables m hplay ▸ hx.tick tables m) (Voice.lfoLatched_reset tables) hs h

/-! ### The previous sample -/

/-- The low four bits of a linear-8 sample are 0: they are bits of its zero byte (43_sample_decode.md R261). -/
theorem decode8_low (m : Memory) (base : BitVec 21) (spos : BitVec 16) : (decode8 m base spos).extractLsb' 0 4 = 0 := by
  apply BitVec.eq_of_getLsbD_eq
  intro i hi
  have hbyte : i < 8 := by omega
  rw [decode8, BitVec.getLsbD_extractLsb', Nat.zero_add, BitVec.getLsbD_append, if_pos hbyte]
  simp

/-- The low four bits of a decoded sample are 0 in both formats (43_sample_decode.md R261, R263). -/
theorem Voice.decodeSample_low (m : Memory) (x : Voice) (spos : BitVec 16) :
    (x.decodeSample m spos).extractLsb' 0 4 = 0 := by
  cases hformat : x.format with
  | linear8 => rw [Voice.decodeSample_linear8 m hformat]; exact decode8_low m x.base spos
  | packed12 => rw [Voice.decodeSample_packed12 m hformat]; exact decode12_low m x.base spos

/-- A register operation keeps the previous sample or sets it to 0. -/
theorem Voice.PrevDecoded.registerOp {m : Memory} {R : Rat} {i : Instr} {x y : Voice} (hx : x.PrevDecoded)
    (h : RegisterOp m R i x y) : y.PrevDecoded := by
  rcases h.position_cases with ⟨-, hkept, -⟩ | ⟨-, hzero, -⟩
  · rw [Voice.PrevDecoded, hkept]; exact hx
  · rw [Voice.PrevDecoded, hzero]; rfl

/-- A tick keeps the previous sample or makes it the sample decoded at the position being left (43_sample_decode.md
R268). -/
theorem Voice.PrevDecoded.tickState {x : Voice} (hx : x.PrevDecoded) (T : Config.Tables) (m : Memory) :
    (x.tickState T m).PrevDecoded := by
  rw [Voice.PrevDecoded, Voice.tickState_prev]
  split
  · exact x.decodeSample_low m x.spos
  · exact hx

theorem Voice.prevDecoded_reset (T : Config.Tables) : (Voice.reset T).PrevDecoded := rfl

/-- Settles O59: the previous sample is only ever 0 or a decoded sample. -/
theorem stepKeepsPrevDecoded : Obligations.StepKeepsPrevDecoded := fun _ _ hs h =>
  step_keeps_voices (P := Voice.PrevDecoded) (fun _ _ _ _ _ hx hop => hx.registerOp hop)
    (fun m _ hx _ => hx.tickState tables m) (Voice.prevDecoded_reset tables) hs h

/-! ### The state after reset -/

/-- Settles O60: every voice has the reset values, and the input clock behind the rate is positive. -/
theorem resetMeetsTheInvariants : Obligations.ResetMeetsTheInvariants := by
  refine ⟨⟨fun v => ?inRange, div_pos inputClock_pos clocksPerFrame_pos, State.reset_rom_wf,
    fun e he => absurd he List.not_mem_nil⟩, fun v => ?voice⟩
  case inRange => rw [State.voice_reset]; exact Voice.inRange_reset tables
  case voice =>
    rw [State.voice_reset]
    exact ⟨Voice.rampAimed_reset tables, Voice.latched_reset, Voice.lfoLatched_reset tables,
      Voice.prevDecoded_reset tables⟩

end Sys2Proof.Machine
